-- ==== Sys2Proof/Word.lean ====
section
/-! DEFINITION. The word types of the M1ps core (00_scope.md R5, R8, R9): plain bit vectors of fixed width. -/

namespace Sys2Proof

/-- A register value, an address, a program counter or an instruction word (R5: XLEN and ILEN are 32). -/
abbrev Word := BitVec 32

/-- A byte of data memory or of a stream (R5). -/
abbrev Byte := BitVec 8

/-- A register field (R5: 5 bits, so it names one of `x[0]` to `x[31]`). -/
abbrev Reg := BitVec 5

/-- An immediate field (R5: 16 bits). -/
abbrev Imm := BitVec 16

end Sys2Proof
end

