-- ==== Sys2Proof/Config.lean ====
section
/-! DEFINITION. What one run fixes before it starts: the launch image (00_scope.md R6) and the open parameters the
source leaves to a model's argument (R7). The spec leaves no value of an instruction's result open, so this file holds
no free value. -/

namespace Sys2Proof

/-- The launch image (70_reset_and_hazards.md R185). `dbg` is carried and never read (10_state.md R31). -/
structure Image where
  /-- `N`, the instruction count. -/
  n : Word
  /-- `ENTRY`, the instruction index at which execution begins. -/
  entry : Word
  /-- `MEMSIZE`, the data memory size in bytes. -/
  memsize : BitVec 16
  /-- `IMEM[0..N-1]`. -/
  imem : List Word
  /-- `DBG[0..N-1]`. -/
  dbg : List Word
  /-- `INIT[0..MEMSIZE-1]`. -/
  init : List Byte
  deriving DecidableEq, Repr

/-- The image with no instruction and no data byte: what the loader reads from a file that ends after its magic
(R191: missing bytes read as 0). DESIGN CHOICE, log entry 1: `State.reset` is the reset from this image. -/
def Image.empty : Image := ⟨0, 0, 0, [], [], []⟩

/-- The loader's open parameters (R7): `MAGIC` (decision D14) and `ALLOC_OK` (decision D21). They are arguments of
`load`, never fixed by the model (log entry 13). -/
structure LoaderParams where
  /-- The four bytes of the format tag. -/
  magic : Vector Byte 4
  /-- Whether the loader's allocations succeed for this `N` and `MEMSIZE`. -/
  allocOk : Word → BitVec 16 → Bool

/-- The spec's default `MAGIC`, `6D 31 70 73` (R186). -/
def defaultMagic : Vector Byte 4 := #v[0x6D, 0x31, 0x70, 0x73]

/-- `TRACE_FORMAT` (R7, decision D10): the text of a record `(pc, w, N)`. An argument of `renderTrace`. -/
abbrev TraceFormat := Word → Word → Word → String

end Sys2Proof
end

