-- ==== Sys2Proof/Machine/State.lean ====
section
/-! DEFINITION. The core's state (10_state.md R20 to R31) as plain data, the ways a step can stop, and the state right
after reset. -/

namespace Sys2Proof.Machine

/-- A memory: (address, value) pairs with rising addresses, none holding 0. An unlisted address reads as 0 (log
entry 4; `Memory.read`, `Memory.write` and `Memory.wf` are in Machine/Ops.lean). -/
abbrev Memory (w : Nat) := List (Nat × BitVec w)

/-- The width of a data access (20_memory.md R48). -/
inductive Width where
  /-- LB and SB: 1 byte. -/
  | byte
  /-- LH and SH: 2 bytes. -/
  | half
  /-- LW and SW: 4 bytes. -/
  | word
  deriving DecidableEq, Repr

/-- The direction of a data access (R45). -/
inductive Direction where
  /-- A load. -/
  | load
  /-- A store. -/
  | store
  deriving DecidableEq, Repr

/-- The complete set of halt reasons with their data (60_exceptions.md R150, R151). -/
inductive HaltReason where
  /-- JR to a target at or beyond `N`: the designed successful end (44_register_type.md R134). -/
  | jrPastEnd (t : Word)
  /-- SYSCALL service 10 (R144). -/
  | exitSyscall
  /-- An illegal word was fetched (30_encoding.md R70). -/
  | badInstruction (w : Word)
  /-- SYSCALL with a code that is no service (R146). -/
  | badSyscall (c : Word)
  /-- A step began with `pc >= N` (40_fetch_dispatch.md R80). -/
  | pastEnd (p : Word)
  /-- A data access outside `0..MEMSIZE-1` (20_memory.md R45; decision D3, log entry 7). -/
  | outOfBounds (ea : Word) (width : Width) (dir : Direction)
  deriving DecidableEq, Repr

/-- The run status (10_state.md R28). -/
inductive Status where
  /-- The core takes steps. -/
  | running
  /-- The run has ended for this reason. -/
  | halted (reason : HaltReason)
  deriving DecidableEq, Repr

/-- A trace record `(pc, w, N)` (10_state.md R30). -/
structure TraceRecord where
  /-- The index fetched from. -/
  pc : Word
  /-- The word fetched. -/
  w : Word
  /-- The instruction count. -/
  n : Word
  deriving DecidableEq, Repr

/-- Everything the spec gives the core (10_state.md, section 7). -/
structure State where
  /-- `x[0]` to `x[31]` (R20); slot 0 is never read or written (R21). -/
  regs : Vector Word 32
  /-- The program counter, an instruction index (R24). -/
  pc : Word
  /-- Data memory (20_memory.md R41). -/
  dmem : List Host.Cell
  /-- The latch `N` (R27). -/
  n : Word
  /-- The latch `ENTRY` (R27). -/
  entry : Word
  /-- The latch `MEMSIZE` (R27). -/
  memsize : BitVec 16
  /-- Instruction memory (R27, 20_memory.md R42). -/
  imem : Memory 32
  /-- The latch `TRACE` (R27). -/
  trace : Bool
  /-- The run status (R28). -/
  status : Status
  /-- The console output stream `OUT` (R29). -/
  out : List Byte
  /-- The trace stream `TR` (R30). -/
  tr : List TraceRecord
  deriving DecidableEq, Repr

/-- Why the machine answers no next state. -/
inductive Fault where
  /-- Raised by `step` alone, on a core that has halted: "A halted core takes no further step" (R28). Safe: the spec
  gives a halted core no step, so nothing the hardware does is left out. -/
  | halted (reason : HaltReason)
  deriving DecidableEq, Repr

/-- Why the machine gives an instruction no meaning. -/
inductive Refusal where
  /-- Raised only by an arm of `exec` whose instruction has no meaning yet (none has this arm now). Safe: the model
  stops where the hardware goes on. -/
  | notModelled (mnemonic : String)
  deriving DecidableEq, Repr

/-- The outcome of executing or stepping. -/
abbrev Result := Host.Outcome State Fault Refusal

/-- The state right after reset (70_reset_and_hazards.md R180) from the empty launch image with trace off. The image
and the trace flag are arguments of a run (00_scope.md R6, R7), and `State.boot` takes every image; that this constant
takes the empty one is a DESIGN CHOICE, log entry 1. -/
def State.reset : State where
  regs := Vector.replicate 32 0
  pc := 0
  dmem := []
  n := 0
  entry := 0
  memsize := 0
  imem := []
  trace := false
  status := .running
  out := []
  tr := []

end Sys2Proof.Machine
end

