-- ==== Sys2Proof/Machine/Ops.lean ====
section
/-! DEFINITION. The named operations over registers, memory, the program counter, the streams and the run status. Every
meaning is written over these. -/

namespace Sys2Proof.Machine

/-! ### Memories in canonical form -/

/-- Read one cell. An unlisted address reads as 0 (log entry 4). -/
def Memory.read {w : Nat} : Memory w → Nat → BitVec w
  | [], _ => 0
  | (a, v) :: m, k => if k = a then v else Memory.read m k

/-- Drop every entry at an address. -/
def Memory.erase {w : Nat} (m : Memory w) (k : Nat) : Memory w := m.filter fun c => c.1 != k

/-- Put an entry before the first one with a higher address. -/
def Memory.insert {w : Nat} : Memory w → Nat → BitVec w → Memory w
  | [], k, x => [(k, x)]
  | (a, v) :: m, k, x => if k < a then (k, x) :: (a, v) :: m else (a, v) :: Memory.insert m k x

/-- Write one cell, keeping the canonical form: the old entry goes, and writing 0 puts none in its place. -/
def Memory.write {w : Nat} (m : Memory w) (k : Nat) (x : BitVec w) : Memory w :=
  if x = 0 then Memory.erase m k else Memory.insert (Memory.erase m k) k x

/-- The canonical form: addresses at or above `lo`, strictly rising, and no value 0. -/
def Memory.wfFrom {w : Nat} (lo : Nat) : Memory w → Bool
  | [] => true
  | (a, v) :: m => decide (lo ≤ a) && !(v == 0) && Memory.wfFrom (a + 1) m

/-- The canonical form. -/
def Memory.wf {w : Nat} (m : Memory w) : Bool := Memory.wfFrom 0 m

/-- Every listed address is below `size`. -/
def Memory.below {w : Nat} (size : Nat) (m : Memory w) : Bool := m.all fun c => decide (c.1 < size)

/-- The memory that holds the listed values from address `a` up. -/
def Memory.ofListFrom {w : Nat} (a : Nat) : List (BitVec w) → Memory w
  | [] => []
  | v :: vs => if v = 0 then Memory.ofListFrom (a + 1) vs else (a, v) :: Memory.ofListFrom (a + 1) vs

/-- The memory that holds the listed values from address 0 up. -/
def Memory.ofList {w : Nat} (vs : List (BitVec w)) : Memory w := Memory.ofListFrom 0 vs

/-! ### General registers -/

/-- A register field names one of the 32 slots. -/
theorem reg_lt (r : Reg) : r.toNat < 32 := r.isLt

/-- `x[r]`: register 0 reads as 0 (10_state.md R21). -/
def State.readReg (s : State) (r : Reg) : Word :=
  if r = 0 then 0 else s.regs[r.toNat]'(reg_lt r)

/-- `x[r] <- v`: a write to register 0 is discarded (R21). -/
def State.writeReg (s : State) (r : Reg) (v : Word) : State :=
  if r = 0 then s else { s with regs := s.regs.set r.toNat v (reg_lt r) }

/-! ### Data memory -/

/-- The number of bytes an access moves (20_memory.md R48). -/
def Width.bytes : Width → Nat
  | .byte => 1
  | .half => 2
  | .word => 4

/-- `DMEM[a]`. -/
def State.readByte (s : State) (a : Nat) : Byte := Memory.read s.dmem a

/-- `MemRead(a, n)` (R44): the byte at `a + k` is bits `8k+7..8k`. -/
def State.memRead (s : State) (a : Nat) : Nat → Word
  | 0 => 0
  | k + 1 => s.memRead a k ||| ((s.readByte (a + k)).zeroExtend 32 <<< (8 * k))

/-- The data memory after `MemWrite(a, n, v)` (R44): `DMEM[a + k] <- v[8k+7:8k]`. -/
def bytesWritten (m : Memory 8) (a : Nat) (v : Word) : Nat → Memory 8
  | 0 => m
  | k + 1 => Memory.write (bytesWritten m a v k) (a + k) (v.extractLsb' (8 * k) 8)

/-- `MemWrite(a, n, v)` (R44). -/
def State.memWrite (s : State) (a n : Nat) (v : Word) : State :=
  { s with dmem := bytesWritten s.dmem a v n }

/-- The bounds check, on unbounded integers (R45). -/
def State.inBounds (s : State) (ea : Word) (width : Width) : Bool :=
  ea.toNat + width.bytes ≤ s.memsize.toNat

/-! ### Program counter -/

/-- The implicit increment of an instruction that falls through (40_fetch_dispatch.md R86). -/
def State.fallThrough (s : State) : State := { s with pc := s.pc + 1 }

/-- A redirect: `pc <- t` with no increment (R86). -/
def State.redirect (s : State) (t : Word) : State := { s with pc := t }

/-! ### Ending the run: the one operation that takes an exception -/

/-- `raise Halt(reason)` (00_scope.md R13; 60_exceptions.md R156): the status changes and nothing else does; `pc` keeps
the index of the halting instruction (40_fetch_dispatch.md R86; decision D7, log entry 9). There is no return from it
(R157). -/
def State.halt (s : State) (reason : HaltReason) : State := { s with status := .halted reason }

/-- The numeric code of a reason (R150; decision D6: labels only). -/
def HaltReason.code : HaltReason → Nat
  | .jrPastEnd _ => 0
  | .exitSyscall => 1
  | .badInstruction _ => 2
  | .badSyscall _ => 3
  | .pastEnd _ => 4
  | .outOfBounds .. => 5

/-- The exit status the host receives (R150, R165). -/
def HaltReason.exitStatus : HaltReason → Nat
  | .jrPastEnd _ => 0
  | .exitSyscall => 1
  | .badInstruction _ => 1
  | .badSyscall _ => 1
  | .pastEnd _ => 1
  | .outOfBounds .. => 1

/-- The fragment of diagnostic text the spec gives for a reason, none where it gives none (R150, R153). No rule reads
it and the whole text is not modelled (decision D9, log entry 19). -/
def HaltReason.diagnostic : HaltReason → Option String
  | .jrPastEnd _ => none
  | .exitSyscall => none
  | .badInstruction _ => some "bad instruction"
  | .badSyscall _ => some "bad syscall number"
  | .pastEnd _ => some "execution past end of instructions"
  | .outOfBounds .. => some "out-of-bounds access"

/-! ### Streams -/

/-- `Emit` of each byte in turn (R13, 10_state.md R29). -/
def State.emit (s : State) (bytes : List Byte) : State := { s with out := s.out ++ bytes }

/-- `Trace(pc, w, N)` when the trace flag is on (10_state.md R30, 40_fetch_dispatch.md R83). -/
def State.record (s : State) (w : Word) : State :=
  if s.trace then { s with tr := s.tr ++ [⟨s.pc, w, s.n⟩] } else s

/-- The text of a trace, through the open parameter `TRACE_FORMAT` (R30, decision D10). -/
def renderTrace (fmt : TraceFormat) (tr : List TraceRecord) : List String :=
  tr.map fun r => fmt r.pc r.w r.n

/-! ### Decimal text -/

/-- The ASCII code of a digit (44_register_type.md R143). -/
def digitByte (d : Nat) : Byte := BitVec.ofNat 8 (0x30 + d)

/-- The base-10 digits of a number below `10 ^ fuel`, most significant first, with no leading zero. -/
def decDigits : Nat → Nat → List Byte
  | 0, _ => []
  | fuel + 1, v => if v < 10 then [digitByte v] else decDigits fuel (v / 10) ++ [digitByte (v % 10)]

/-- `DecText(s32(v))` (R143; decision D8: UNVERIFIED, log entry 10). Ten digits are enough for `2 ^ 31`. -/
def decText (v : Word) : List Byte :=
  if v.toInt < 0 then 0x2D :: decDigits 10 v.toInt.natAbs else decDigits 10 v.toInt.natAbs

end Sys2Proof.Machine
end

