-- ==== Sys2Proof/Machine/Flags.lean ====
section
/-! DEFINITION. The core has no status flag, condition code or predicate (10_state.md R26), and no instruction computes
one. What other machines put into flags is here a value: SLT's result word and the conditions of the branches. -/

namespace Sys2Proof.Machine

/-- SLT's result: 1 when `a` is below `b` as unsigned numbers, else 0 (44_register_type.md R133). -/
def lessUnsigned (a b : Word) : Word := if a.toNat < b.toNat then 1 else 0

/-- The branches compare all 32 bits (42_branches.md R100, R101). -/
def State.regsEqual (s : State) (rs rt : Reg) : Bool := s.readReg rs == s.readReg rt

end Sys2Proof.Machine
end

