-- ==== Sys2Proof/Machine/Operands.lean ====
section
/-! DEFINITION. How operands are formed from fields and registers (00_scope.md R10; 30_encoding.md R63; 20_memory.md
R43; 42_branches.md R102). -/

namespace Sys2Proof.Machine

/-- `sext_16` (R10). -/
def sext16 (v : BitVec 16) : Word := v.signExtend 32

/-- `zext_16` (R10). -/
def zext16 (v : BitVec 16) : Word := v.zeroExtend 32

/-- `sext_8` (R10). -/
def sext8 (v : BitVec 8) : Word := v.signExtend 32

/-- `imm << 16`, that is `imm ++ 0x0000` (R63). -/
def upper16 (imm : Imm) : Word := imm ++ 0#16

/-- `EA = x[rs] + sext_16(imm)` modulo 2^32, for all six loads and stores (R43; conflict C1). -/
def State.effectiveAddress (s : State) (rs : Reg) (imm : Imm) : Word := s.readReg rs + sext16 imm

/-- `pc + sext_16(imm)` modulo 2^32: relative to the branch itself and not scaled (R102; the wrap is decision D4:
UNVERIFIED, log entry 8). -/
def State.branchTarget (s : State) (imm : Imm) : Word := s.pc + sext16 imm

/-- What a load writes for the unsigned value `MemRead` gives it: a byte and a half-word are sign-extended (R110,
R111), a word is taken as it is (R112). -/
def Width.extend : Width → Word → Word
  | .byte, v => sext8 (v.setWidth 8)
  | .half, v => sext16 (v.setWidth 16)
  | .word, v => v

end Sys2Proof.Machine
end

