-- ==== Sys2Proof/Machine/Branches.lean ====
section
/-! DEFINITION. BEQ and BNE (42_branches.md R100 to R105). Neither writes a register or memory, and neither halts in its
own step: a target at or above `N` halts the next one (R104). -/

namespace Sys2Proof.Machine

/-- Redirect to the branch target when taken, else fall through (R89: no delay slot). -/
def State.branchIf (s : State) (taken : Bool) (imm : Imm) : Result :=
  .next (if taken then s.redirect (s.branchTarget imm) else s.fallThrough)

/-- BEQ (R100). -/
def execBeq (rs rt : Reg) (imm : Imm) (s : State) : Result := s.branchIf (s.regsEqual rs rt) imm

/-- BNE (R101). -/
def execBne (rs rt : Reg) (imm : Imm) (s : State) : Result := s.branchIf (!s.regsEqual rs rt) imm

end Sys2Proof.Machine
end

