-- ==== Sys2Proof/Machine/ImmediateAlu.lean ====
section
/-! DEFINITION. ADDI, ADDIU, ORI, LUI (41_immediate_alu.md R90 to R93). None halts and each falls through. -/

namespace Sys2Proof.Machine

/-- Write a result to its register and fall through: the common end of every ALU instruction. -/
def State.finish (s : State) (dest : Reg) (v : Word) : Result := .next (s.writeReg dest v).fallThrough

/-- ADDI (R90): `x[rt] <- x[rs] + sext_16(imm)` modulo 2^32, with no overflow exception (60_exceptions.md R151). -/
def execAddi (rs rt : Reg) (imm : Imm) (s : State) : Result := s.finish rt (s.readReg rs + sext16 imm)

/-- ADDIU (R91): exactly ADDI's operation (conflict C4, decision D16). -/
def execAddiu (rs rt : Reg) (imm : Imm) (s : State) : Result := s.finish rt (s.readReg rs + sext16 imm)

/-- ORI (R92): `x[rt] <- x[rs] | zext_16(imm)`. -/
def execOri (rs rt : Reg) (imm : Imm) (s : State) : Result := s.finish rt (s.readReg rs ||| zext16 imm)

/-- LUI (R93): `x[rt] <- imm << 16`. -/
def execLui (rt : Reg) (imm : Imm) (s : State) : Result := s.finish rt (upper16 imm)

end Sys2Proof.Machine
end

