-- ==== Sys2Proof/Machine/LoadsStores.lean ====
section
/-! DEFINITION. LB, LH, LW, SB, SH, SW (43_loads_stores.md R110 to R117; 20_memory.md R43 to R48). -/

namespace Sys2Proof.Machine

/-- A load: the bounds check comes first, also when `rt` is register 0 (20_memory.md R45, 10_state.md R21; the halt is
decision D3: UNVERIFIED, log entry 7). -/
def State.loadAt (s : State) (width : Width) (rs rt : Reg) (imm : Imm) : Result :=
  let ea := s.effectiveAddress rs imm
  if s.inBounds ea width then
    .next (s.writeReg rt (width.extend (s.memRead ea.toNat width.bytes))).fallThrough
  else .next (s.halt (.outOfBounds ea width .load))

/-- A store: no byte is written when any byte is out of bounds (R45). -/
def State.storeAt (s : State) (width : Width) (rs rt : Reg) (imm : Imm) : Result :=
  let ea := s.effectiveAddress rs imm
  if s.inBounds ea width then .next (s.memWrite ea.toNat width.bytes (s.readReg rt)).fallThrough
  else .next (s.halt (.outOfBounds ea width .store))

/-- LB (R110). -/
def execLb (rs rt : Reg) (imm : Imm) (s : State) : Result := s.loadAt .byte rs rt imm

/-- LH (R111). -/
def execLh (rs rt : Reg) (imm : Imm) (s : State) : Result := s.loadAt .half rs rt imm

/-- LW (R112). -/
def execLw (rs rt : Reg) (imm : Imm) (s : State) : Result := s.loadAt .word rs rt imm

/-- SB (R113). -/
def execSb (rs rt : Reg) (imm : Imm) (s : State) : Result := s.storeAt .byte rs rt imm

/-- SH (R114). -/
def execSh (rs rt : Reg) (imm : Imm) (s : State) : Result := s.storeAt .half rs rt imm

/-- SW (R115). -/
def execSw (rs rt : Reg) (imm : Imm) (s : State) : Result := s.storeAt .word rs rt imm

end Sys2Proof.Machine
end

