-- ==== Sys2Proof/Machine/RegisterType.lean ====
section
/-! DEFINITION. ADD, SYSCALL, MUL, SLT, JR and the syscall services (44_register_type.md R130 to R146). -/

namespace Sys2Proof.Machine

/-- ADD (R130): modulo 2^32, with no overflow exception. -/
def execAdd (rs rt rd : Reg) (s : State) : Result := s.finish rd (s.readReg rs + s.readReg rt)

/-- MUL (R132): the low 32 bits of the product. -/
def execMul (rs rt rd : Reg) (s : State) : Result := s.finish rd (s.readReg rs * s.readReg rt)

/-- SLT (R133): unsigned. -/
def execSlt (rs rt rd : Reg) (s : State) : Result := s.finish rd (lessUnsigned (s.readReg rs) (s.readReg rt))

/-- JR (R134): a target at or beyond `N` ends the run successfully, any other is the next index. -/
def execJr (rs : Reg) (s : State) : Result :=
  let t := s.readReg rs
  .next (if t.toNat < s.n.toNat then s.redirect t else s.halt (.jrPastEnd t))

/-- A service of the environment (R141). -/
inductive Service where
  /-- Service 1. -/
  | printInteger
  /-- Service 10. -/
  | exit
  /-- Service 11. -/
  | printCharacter
  deriving DecidableEq, Repr

/-- The service table, selected by the full 32-bit code (R141). -/
def serviceTable : List (Word × Service) :=
  [(1, .printInteger), (10, .exit), (11, .printCharacter)]

/-- One service; each reads its argument from `x[4]` (R140, R142, R144, R145). -/
def State.serve (s : State) : Service → State
  | .printInteger => (s.emit (decText (s.readReg 4) ++ [0x0A])).fallThrough
  | .exit => s.halt .exitSyscall
  | .printCharacter => (s.emit [(s.readReg 4).setWidth 8]).fallThrough

/-- SYSCALL (R131, R140): the code is `x[2]`; a code outside the table halts before anything is emitted (R146). -/
def execSyscall (s : State) : Result :=
  match serviceTable.lookup (s.readReg 2) with
  | some service => .next (s.serve service)
  | none => .next (s.halt (.badSyscall (s.readReg 2)))

end Sys2Proof.Machine
end

