-- ==== Sys2Proof/Syntax.lean ====
section
/-! DEFINITION. The 17 instructions (00_scope.md R2), one constructor per row of spec/opcode_table.json. Operands are
the fields an instruction reads, in the order of the word (30_encoding.md R61, R62); a field that R64 says is ignored is
no operand. -/

namespace Sys2Proof

/-- An instruction of the M1ps core. -/
inductive Instr where
  /-- ADDI, 41_immediate_alu.md R90. -/
  | addi (rs rt : Reg) (imm : Imm)
  /-- ADDIU, R91. -/
  | addiu (rs rt : Reg) (imm : Imm)
  /-- ORI, R92. -/
  | ori (rs rt : Reg) (imm : Imm)
  /-- LUI, R93 (the rs field is not read). -/
  | lui (rt : Reg) (imm : Imm)
  /-- BEQ, 42_branches.md R100. -/
  | beq (rs rt : Reg) (imm : Imm)
  /-- BNE, R101. -/
  | bne (rs rt : Reg) (imm : Imm)
  /-- LB, 43_loads_stores.md R110. -/
  | lb (rs rt : Reg) (imm : Imm)
  /-- LH, R111. -/
  | lh (rs rt : Reg) (imm : Imm)
  /-- LW, R112. -/
  | lw (rs rt : Reg) (imm : Imm)
  /-- SB, R113. -/
  | sb (rs rt : Reg) (imm : Imm)
  /-- SH, R114. -/
  | sh (rs rt : Reg) (imm : Imm)
  /-- SW, R115. -/
  | sw (rs rt : Reg) (imm : Imm)
  /-- ADD, 44_register_type.md R130. -/
  | add (rs rt rd : Reg)
  /-- SYSCALL, R131 (bits 25..6 are not read). -/
  | syscall
  /-- MUL, R132. -/
  | mul (rs rt rd : Reg)
  /-- SLT, R133. -/
  | slt (rs rt rd : Reg)
  /-- JR, R134 (rt, rd and shamt are not read). -/
  | jr (rs : Reg)
  deriving DecidableEq, Repr

end Sys2Proof
end

