-- ==== Sys2Proof/WellFormed.lean ====
section
/-! DEFINITION. The checks on what comes from outside the core: assembler operands (30_encoding.md R71) and launch
images (70_reset_and_hazards.md R185). A term of `Instr` needs no check: its fields have the widths of R5 by type, and
every value of every field is legal (10_state.md R20, 60_exceptions.md R159). -/

namespace Sys2Proof

/-- A register number an assembler operand may name: `$0` to `$31` (R71). -/
def regInRange (r : Nat) : Bool := r < 32

/-- An immediate that fits in 16 bits as a signed value (R71: ADDI, ADDIU, BEQ, BNE, loads and stores). -/
def signedInRange (v : Int) : Bool := -32768 ≤ v && v ≤ 32767

/-- An immediate that fits in 16 bits as an unsigned value (R71: ORI and LUI). -/
def unsignedInRange (v : Int) : Bool := 0 ≤ v && v ≤ 65535

/-- An image as a load leaves it (R185): exactly `N` words, `N` debug offsets and `MEMSIZE` data bytes. -/
def Image.wellFormed (img : Image) : Bool :=
  img.imem.length == img.n.toNat && img.dbg.length == img.n.toNat && img.init.length == img.memsize.toNat

end Sys2Proof
end

