-- ==== Sys2Proof/Decode.lean ====
section
/-! DEFINITION. Decoding and encoding (30_encoding.md R60 to R73). The field layout stands once, in the field functions
and in `packR` and `packI`; the opcode map stands once, in `primaryMap` and `functMap` (93_implementation_defined.md,
sections E and F ask for one place each). -/

namespace Sys2Proof

/-! ### The layout (R61; UNVERIFIED, log entry 5: the positions of rs, rt, rd, shamt and imm are decision D1) -/

/-- `opcode = w[31:26]`. -/
def Word.opcode (w : Word) : BitVec 6 := w.extractLsb' 26 6

/-- `rs = w[25:21]`. -/
def Word.rs (w : Word) : Reg := w.extractLsb' 21 5

/-- `rt = w[20:16]`. -/
def Word.rt (w : Word) : Reg := w.extractLsb' 16 5

/-- `rd = w[15:11]`. -/
def Word.rd (w : Word) : Reg := w.extractLsb' 11 5

/-- `funct = w[5:0]`. -/
def Word.funct (w : Word) : BitVec 6 := w.extractLsb' 0 6

/-- `imm = w[15:0]`. -/
def Word.imm (w : Word) : Imm := w.extractLsb' 0 16

/-- The R-format word with opcode 0 and shamt 0 (R71, R73). -/
def packR (rs rt rd : Reg) (funct : BitVec 6) : Word := 0#6 ++ rs ++ rt ++ rd ++ 0#5 ++ funct

/-- The I-format word (R73). -/
def packI (opcode : BitVec 6) (rs rt : Reg) (imm : Imm) : Word := opcode ++ rs ++ rt ++ imm

/-! ### The opcode map (R66, R67) -/

/-- The primary opcodes that name an instruction, each with the instruction its fields rs, rt, imm give (R66). -/
def primaryMap : List (BitVec 6 × (Reg → Reg → Imm → Instr)) :=
  [(0x04, .beq), (0x05, .bne), (0x08, .addi), (0x09, .addiu), (0x0D, .ori), (0x0F, fun _ rt imm => .lui rt imm),
   (0x20, .lb), (0x21, .lh), (0x23, .lw), (0x28, .sb), (0x29, .sh), (0x2B, .sw)]

/-- The function codes of opcode 0, each with the instruction its fields rs, rt, rd give (R67; decision D12: 0x20 is
ADD and 0x21 is illegal, log entry 12). -/
def functMap : List (BitVec 6 × (Reg → Reg → Reg → Instr)) :=
  [(0x02, .mul), (0x08, fun rs _ _ => .jr rs), (0x0C, fun _ _ _ => .syscall), (0x20, .add), (0x2A, .slt)]

/-- Why a word is illegal (R70). -/
inductive DecodeError where
  /-- The opcode is not in R66. -/
  | badOpcode (opcode : BitVec 6)
  /-- The opcode is 0 and the function code is not in R67. -/
  | badFunct (funct : BitVec 6)
  deriving DecidableEq, Repr

/-- The two-step decode (R65). No bit outside the opcode, the function code and the operands takes part (R64,
decision D2: UNVERIFIED, log entry 6). -/
def decode (w : Word) : Except DecodeError Instr :=
  if w.opcode = 0 then
    match functMap.lookup w.funct with
    | some make => .ok (make w.rs w.rt w.rd)
    | none => .error (.badFunct w.funct)
  else
    match primaryMap.lookup w.opcode with
    | some make => .ok (make w.rs w.rt w.imm)
    | none => .error (.badOpcode w.opcode)

/-- The encoder (R71, R73): free fields are written as zeros. -/
def encode : Instr → Word
  | .addi rs rt imm => packI 0x08 rs rt imm
  | .addiu rs rt imm => packI 0x09 rs rt imm
  | .ori rs rt imm => packI 0x0D rs rt imm
  | .lui rt imm => packI 0x0F 0 rt imm
  | .beq rs rt imm => packI 0x04 rs rt imm
  | .bne rs rt imm => packI 0x05 rs rt imm
  | .lb rs rt imm => packI 0x20 rs rt imm
  | .lh rs rt imm => packI 0x21 rs rt imm
  | .lw rs rt imm => packI 0x23 rs rt imm
  | .sb rs rt imm => packI 0x28 rs rt imm
  | .sh rs rt imm => packI 0x29 rs rt imm
  | .sw rs rt imm => packI 0x2B rs rt imm
  | .add rs rt rd => packR rs rt rd 0x20
  | .syscall => packR 0 0 0 0x0C
  | .mul rs rt rd => packR rs rt rd 0x02
  | .slt rs rt rd => packR rs rt rd 0x2A
  | .jr rs => packR rs 0 0 0x08

/-- The bits of a word that the decoder examines when it reads this instruction: all but those R64 lists. -/
def examinedBits : Instr → Word
  | .add .. | .mul .. | .slt .. => 0xFFFFF83F
  | .jr .. => 0xFFE0003F
  | .syscall => 0xFC00003F
  | .lui .. => 0xFC1FFFFF
  | .addi .. | .addiu .. | .ori .. | .beq .. | .bne .. => 0xFFFFFFFF
  | .lb .. | .lh .. | .lw .. | .sb .. | .sh .. | .sw .. => 0xFFFFFFFF

/-- The instruction the decoder reads from an opcode-table row's word of `nbits` bits (bits above `nbits` are 0). -/
def decodeTableWord (nbits w : Nat) : Option Instr :=
  (decode (BitVec.ofNat 32 (w % 2 ^ nbits))).toOption

end Sys2Proof
end

