-- ==== Sys2Proof/Machine/Fetch.lean ====
section
/-! DEFINITION. What a step does before it executes an instruction: the past-end check, the fetch, the trace record and
the decode (40_fetch_dispatch.md R80 to R84). -/

namespace Sys2Proof.Machine

/-- Whether `pc` names a word of instruction memory (R80, unsigned). -/
def State.hasNext (s : State) : Bool := s.pc.toNat < s.n.toNat

/-- The word `IMEM[pc]` (R82; 20_memory.md R49). -/
def State.fetched (s : State) : Word := Memory.read s.imem s.pc.toNat

/-- The outcome of the part of a step before the instruction. -/
inductive Fetched where
  /-- The run ended before any instruction executed. -/
  | ended (s : State)
  /-- This instruction executes in this state. -/
  | ready (i : Instr) (s : State)

/-- Check, fetch, trace, decode, in this order (R80, R82, R83, R84). -/
def State.fetchStage (s : State) : Fetched :=
  if s.hasNext then
    let s' := s.record s.fetched
    match decode s.fetched with
    | .ok i => .ready i s'
    | .error _ => .ended (s'.halt (.badInstruction s.fetched))
  else .ended (s.halt (.pastEnd s.pc))

/-- The state in which the next step fetches `w`: the word lies at `pc`, `N` covers it and the core runs. At
`pc = 2^32 - 1`, which no `N` covers (10_state.md R25), the word lies at index 0 and `pc` is 0 (log entry 2). -/
def State.placeWord (s : State) (w : Word) : State :=
  let at_ : Word := if s.pc = 0xFFFFFFFF then 0 else s.pc
  { s with
    status := .running
    pc := at_
    n := if at_.toNat < s.n.toNat then s.n else at_ + 1
    imem := Memory.write s.imem at_.toNat w }

end Sys2Proof.Machine
end

