-- ==== Sys2Proof/Machine/Step.lean ====
section
/-! DEFINITION. The step (40_fetch_dispatch.md R80 to R87). -/

namespace Sys2Proof.Machine

/-- One indivisible step (R81, R87). A halted core has none (10_state.md R28). -/
def step (s : State) : Host.Outcome State Fault Refusal :=
  match s.status with
  | .halted reason => .fault (.halted reason)
  | .running =>
    match s.fetchStage with
    | .ended s' => .next s'
    | .ready i s' => exec i s'

/-- `s` with an opcode-table row's word placed where the next step fetches (log entry 2). -/
def State.withFetchWord (s : State) (nbits w : Nat) : State :=
  s.placeWord (BitVec.ofNat 32 (w % 2 ^ nbits))

end Sys2Proof.Machine
end

