-- ==== Sys2Proof/Machine/Assembler.lean ====
section
/-! DEFINITION. The assembler of 30_encoding.md R71 to R73 (decision D13: the spec's own convention, no part of the
core's behaviour). R71 fixes the operand forms, the ranges and the refusals. DESIGN CHOICE: the division of a line into
tokens (log entry 16), a hexadecimal literal above 0x7FFF in a signed field (log entry 28), and the spellings of a
number that R71 does not speak of (log entry 29). -/

namespace Sys2Proof.Machine

/-- An assembler line, its operands in R71's order: destination first. A register is its number; an immediate is the
integer written. -/
inductive Asm where
  /-- `MNEM $rd, $rs, $rt`. -/
  | reg3 (make : Reg → Reg → Reg → Instr) (rd rs rt : Nat)
  /-- `MNEM $rt, $rs, imm`, with a signed or an unsigned immediate. -/
  | imm3 (make : Reg → Reg → Imm → Instr) (signed : Bool) (rt rs : Nat) (imm : Int)
  /-- `LUI $rt, imm`. -/
  | lui (rt : Nat) (imm : Int)
  /-- `MNEM $rs, $rt, off`. -/
  | branch (make : Reg → Reg → Imm → Instr) (rs rt : Nat) (off : Int)
  /-- `MNEM $rt, off($rs)`. -/
  | memory (make : Reg → Reg → Imm → Instr) (rt : Nat) (off : Int) (rs : Nat)
  /-- `JR $rs`. -/
  | jr (rs : Nat)
  /-- `SYSCALL`. -/
  | syscall

/-- R71's ranges: registers `$0` to `$31`, and an immediate that fits in 16 bits, unsigned for ORI and LUI and signed
for the others. DESIGN CHOICE, log entry 28: the range is that of the number written, in hexadecimal as in decimal, so
0x8000 is 32768 and is refused where the field is signed; 95_test_vectors.md section 2.2 has one line that writes it. -/
def Asm.wellFormed : Asm → Bool
  | .reg3 _ rd rs rt => regInRange rd && regInRange rs && regInRange rt
  | .imm3 _ signed rt rs imm =>
    regInRange rt && regInRange rs && (if signed then signedInRange imm else unsignedInRange imm)
  | .lui rt imm => regInRange rt && unsignedInRange imm
  | .branch _ rs rt off => regInRange rs && regInRange rt && signedInRange off
  | .memory _ rt off rs => regInRange rt && regInRange rs && signedInRange off
  | .jr rs => regInRange rs
  | .syscall => true

/-- The instruction a line in range stands for. -/
def Asm.instr : Asm → Instr
  | .reg3 make rd rs rt => make (BitVec.ofNat 5 rs) (BitVec.ofNat 5 rt) (BitVec.ofNat 5 rd)
  | .imm3 make _ rt rs imm => make (BitVec.ofNat 5 rs) (BitVec.ofNat 5 rt) (BitVec.ofInt 16 imm)
  | .lui rt imm => .lui (BitVec.ofNat 5 rt) (BitVec.ofInt 16 imm)
  | .branch make rs rt off => make (BitVec.ofNat 5 rs) (BitVec.ofNat 5 rt) (BitVec.ofInt 16 off)
  | .memory make rt off rs => make (BitVec.ofNat 5 rs) (BitVec.ofNat 5 rt) (BitVec.ofInt 16 off)
  | .jr rs => .jr (BitVec.ofNat 5 rs)
  | .syscall => .syscall

/-- The word of a line, refused when an operand is out of range (R71). -/
def Asm.assemble (a : Asm) : Option Word := if a.wellFormed then some (encode a.instr) else none

/-! ### Text -/

/-- A piece of an assembler line. -/
inductive Token where
  /-- A run of other characters: a mnemonic, a register or a number. -/
  | word (cs : List Char)
  /-- `,` -/
  | comma
  /-- `(` -/
  | opening
  /-- `)` -/
  | closing
  deriving DecidableEq, Repr

/-- Put a finished word before the tokens after it. -/
def closeWord (cs : List Char) (rest : List Token) : List Token := if cs = [] then rest else .word cs :: rest

/-- Divide a line at spaces, tabs, commas and parentheses; `acc` is the word being read. -/
def tokens : List Char → List Char → List Token
  | acc, [] => closeWord acc []
  | acc, c :: cs =>
    if c = ' ' ∨ c = '\t' then closeWord acc (tokens [] cs)
    else if c = ',' then closeWord acc (.comma :: tokens [] cs)
    else if c = '(' then closeWord acc (.opening :: tokens [] cs)
    else if c = ')' then closeWord acc (.closing :: tokens [] cs)
    else tokens (acc ++ [c.toLower]) cs

/-- The value of a digit character below `base`. -/
def digitValue (base : Nat) (c : Char) : Option Nat :=
  let v := if c.isDigit then c.toNat - 48 else if 'a'.toNat ≤ c.toNat then c.toNat - 87 else base
  if v < base then some v else none

/-- The value of a non-empty run of digits. -/
def digitsValue (base : Nat) (cs : List Char) : Option Nat :=
  if cs = [] then none
  else cs.foldl (fun acc c => acc.bind fun v => (digitValue base c).map fun d => v * base + d) (some 0)

/-- A register operand, `$` and a decimal number (R71). DESIGN CHOICE, log entry 29: leading zeros are read, so `$007`
is `$7`. -/
def registerOperand : List Char → Option Nat
  | '$' :: cs => digitsValue 10 cs
  | _ => none

/-- A number without a sign: decimal, or hexadecimal after `0x` (R71). DESIGN CHOICE, log entry 29: either may have
leading zeros, and either may stand where R71 has an immediate or an offset. -/
def unsignedNumber : List Char → Option Nat
  | '0' :: 'x' :: cs => digitsValue 16 cs
  | cs => digitsValue 10 cs

/-- An immediate operand: a number, with `-` before it when it is negative. DESIGN CHOICE, log entry 29: the number after
the `-` may be hexadecimal, so `-0x10` is -16; `-0` is 0; and there is no `+`. -/
def immediateOperand : List Char → Option Int
  | '-' :: cs => (unsignedNumber cs).map fun v => -(v : Int)
  | cs => (unsignedNumber cs).map fun v => (v : Int)

/-- The mnemonics of each operand form (R71). -/
def reg3Mnemonics : List (List Char × (Reg → Reg → Reg → Instr)) :=
  [("add".toList, .add), ("mul".toList, .mul), ("slt".toList, .slt)]

/-- ADDI, ADDIU (signed) and ORI (unsigned). -/
def imm3Mnemonics : List (List Char × (Reg → Reg → Imm → Instr) × Bool) :=
  [("addi".toList, .addi, true), ("addiu".toList, .addiu, true), ("ori".toList, .ori, false)]

/-- BEQ and BNE. -/
def branchMnemonics : List (List Char × (Reg → Reg → Imm → Instr)) :=
  [("beq".toList, .beq), ("bne".toList, .bne)]

/-- The loads and stores. -/
def memoryMnemonics : List (List Char × (Reg → Reg → Imm → Instr)) :=
  [("lb".toList, .lb), ("lh".toList, .lh), ("lw".toList, .lw), ("sb".toList, .sb), ("sh".toList, .sh), ("sw".toList, .sw)]

/-- A line of three operands between commas. -/
def parseThree (m a b c : List Char) : Option Asm :=
  match reg3Mnemonics.lookup m, imm3Mnemonics.lookup m, branchMnemonics.lookup m with
  | some make, _, _ => do return .reg3 make (← registerOperand a) (← registerOperand b) (← registerOperand c)
  | _, some (make, signed), _ =>
    do return .imm3 make signed (← registerOperand a) (← registerOperand b) (← immediateOperand c)
  | _, _, some make => do return .branch make (← registerOperand a) (← registerOperand b) (← immediateOperand c)
  | _, _, _ => none

/-- The line that a list of tokens is, by R71's forms; there is no pseudo-instruction (R72). -/
def parseTokens : List Token → Option Asm
  | [.word m] => if m = "syscall".toList then some .syscall else none
  | [.word m, .word a] => if m = "jr".toList then (registerOperand a).map .jr else none
  | [.word m, .word a, .comma, .word b] =>
    if m = "lui".toList then do return .lui (← registerOperand a) (← immediateOperand b) else none
  | [.word m, .word a, .comma, .word b, .comma, .word c] => parseThree m a b c
  | [.word m, .word a, .comma, .word b, .opening, .word c, .closing] =>
    match memoryMnemonics.lookup m with
    | some make => do return .memory make (← registerOperand a) (← immediateOperand b) (← registerOperand c)
    | none => none
  | _ => none

/-- The word of a list of tokens, or a refusal. -/
def assembleTokens (line : List Token) : Option Word := (parseTokens line).bind Asm.assemble

/-- The word of one line of assembler text, or a refusal. -/
def assembleLine (line : String) : Option Word := assembleTokens (tokens [] line.toList)

end Sys2Proof.Machine
end

