-- ==== Sys2Proof/Machine/Launch.lean ====
section
/-! DEFINITION. The launch: from a container file to an image (70_reset_and_hazards.md R185 to R193) and from an image
to the state after reset (R180). The loader stands outside the core and runs before reset (decision D19). -/

namespace Sys2Proof.Machine

/-! ### Reading the container (R187 to R191) -/

/-- The byte at an offset; past the end of the file it reads as 0 (R191). -/
def fileByte (file : List Byte) (o : Nat) : Byte := file.getD o 0

/-- A little-endian field of `k` bytes at offset `o`, as a number (R188). -/
def fieldLE (file : List Byte) (o : Nat) : Nat → Nat
  | 0 => 0
  | k + 1 => fieldLE file o k + (fileByte file (o + k)).toNat * 256 ^ k

/-- A big-endian word at offset `o` (R189). -/
def wordBE (file : List Byte) (o : Nat) : Word :=
  fileByte file o ++ fileByte file (o + 1) ++ fileByte file (o + 2) ++ fileByte file (o + 3)

/-- The image a container describes; bytes after the data are not read (R187, R192; decision D18: UNVERIFIED, log
entry 14). -/
def readImage (file : List Byte) : Image :=
  let n := fieldLE file 4 4
  let memsize := fieldLE file (12 + 8 * n) 2
  { n := BitVec.ofNat 32 n
    entry := BitVec.ofNat 32 (fieldLE file 8 4)
    memsize := BitVec.ofNat 16 memsize
    imem := (List.range n).map fun i => wordBE file (12 + 4 * i)
    dbg := (List.range n).map fun i => BitVec.ofNat 32 (fieldLE file (12 + 4 * n + 4 * i) 4)
    init := (List.range memsize).map fun k => fileByte file (14 + 8 * n + k) }

/-- Why a load fails (R186). -/
inductive LoadFailure where
  /-- The file cannot be opened or read. -/
  | unreadable
  /-- The first four bytes are not `MAGIC`. -/
  | badMagic
  /-- An allocation fails. -/
  | allocation
  deriving DecidableEq, Repr

/-- Every failure exits with status 1 (R186, R165). -/
def LoadFailure.exitStatus : LoadFailure → Nat
  | .unreadable => 1
  | .badMagic => 1
  | .allocation => 1

/-- The loader (R186): `none` stands for a file that cannot be read. The magic is checked before anything is allocated
(log entry 17). -/
def load (p : LoaderParams) : Option (List Byte) → Except LoadFailure Image
  | none => .error .unreadable
  | some file =>
    if (List.range 4).map (fileByte file) = p.magic.toList then
      let img := readImage file
      if p.allocOk img.n img.memsize then .ok img else .error .allocation
    else .error .badMagic

/-! ### Reset (R180) -/

/-- The state after reset from an image: the five steps of R180. Only the first `N` words and the first `MEMSIZE` bytes
of the image are read (log entry 20). -/
def State.boot (img : Image) (trace : Bool) : State where
  regs := (Vector.replicate 32 0).set 31 img.n
  pc := img.entry
  dmem := Memory.ofList (img.init.take img.memsize.toNat)
  n := img.n
  entry := img.entry
  memsize := img.memsize
  imem := Memory.ofList (img.imem.take img.n.toNat)
  trace := trace
  status := .running
  out := []
  tr := []

/-- A launch: load, then reset; a failed load has no core state (R186). -/
def launch (p : LoaderParams) (file : Option (List Byte)) (trace : Bool) : Except LoadFailure State :=
  (load p file).map (State.boot · trace)

/-! ### Writing a container, the inverse of reading one (R187) -/

/-- A number as `k` little-endian bytes (R188). -/
def bytesLE (v : Nat) : Nat → List Byte
  | 0 => []
  | k + 1 => BitVec.ofNat 8 v :: bytesLE (v / 256) k

/-- A word as four big-endian bytes (R189). -/
def bytesBE (w : Word) : List Byte := (bytesLE w.toNat 4).reverse

/-- The container of an image (R187). -/
def container (magic : Vector Byte 4) (img : Image) : List Byte :=
  magic.toList ++ bytesLE img.n.toNat 4 ++ bytesLE img.entry.toNat 4 ++ img.imem.flatMap bytesBE ++
    img.dbg.flatMap (fun d => bytesLE d.toNat 4) ++ bytesLE img.memsize.toNat 2 ++ img.init

end Sys2Proof.Machine
end

