-- ==== Sys2Proof/Safety.lean ====
section
/-! DEFINITION. What counts as a sound state and as a sound end of a run, and the words in which statements say what an
instruction leaves alone and what an assembler line stands for. Nothing here is used by the machine. -/

namespace Sys2Proof

/-- The general register an instruction writes (10_state.md R22). -/
def Instr.dest : Instr → Option Reg
  | .addi _ rt _ => some rt
  | .addiu _ rt _ => some rt
  | .ori _ rt _ => some rt
  | .lui rt _ => some rt
  | .lb _ rt _ => some rt
  | .lh _ rt _ => some rt
  | .lw _ rt _ => some rt
  | .add _ _ rd => some rd
  | .mul _ _ rd => some rd
  | .slt _ _ rd => some rd
  | .sb .. => none
  | .sh .. => none
  | .sw .. => none
  | .beq .. => none
  | .bne .. => none
  | .jr .. => none
  | .syscall => none

/-- Whether an instruction may set `pc` itself (10_state.md R24; 40_fetch_dispatch.md R85). -/
def Instr.mayRedirect : Instr → Bool
  | .beq .. => true
  | .bne .. => true
  | .jr .. => true
  | .addi .. => false
  | .addiu .. => false
  | .ori .. => false
  | .lui .. => false
  | .lb .. => false
  | .lh .. => false
  | .lw .. => false
  | .sb .. => false
  | .sh .. => false
  | .sw .. => false
  | .add .. => false
  | .mul .. => false
  | .slt .. => false
  | .syscall => false

end Sys2Proof

namespace Sys2Proof.Machine

/-- The data access an instruction makes: width, direction, base and offset (20_memory.md R43, R48). -/
def dataAccess : Instr → Option (Width × Direction × Reg × Imm)
  | .lb rs _ imm => some (.byte, .load, rs, imm)
  | .lh rs _ imm => some (.half, .load, rs, imm)
  | .lw rs _ imm => some (.word, .load, rs, imm)
  | .sb rs _ imm => some (.byte, .store, rs, imm)
  | .sh rs _ imm => some (.half, .store, rs, imm)
  | .sw rs _ imm => some (.word, .store, rs, imm)
  | .addi .. => none
  | .addiu .. => none
  | .ori .. => none
  | .lui .. => none
  | .beq .. => none
  | .bne .. => none
  | .add .. => none
  | .syscall => none
  | .mul .. => none
  | .slt .. => none
  | .jr .. => none

/-! ### Frames -/

/-- The latches that no instruction writes (10_state.md R27). -/
def SameConfig (s t : State) : Prop :=
  t.n = s.n ∧ t.entry = s.entry ∧ t.memsize = s.memsize ∧ t.imem = s.imem ∧ t.trace = s.trace

/-- Every general register reads as before. -/
def SameRegs (s t : State) : Prop := ∀ r, t.readReg r = s.readReg r

/-- Every byte of data memory reads as before. -/
def SameData (s t : State) : Prop := ∀ a, t.readByte a = s.readByte a

/-- Both streams are as before. -/
def SameStreams (s t : State) : Prop := t.out = s.out ∧ t.tr = s.tr

/-- The whole effect, but for the program counter, of an instruction that writes `v` to register `dest`: a write to
register 0 changes no register (R21), and nothing else changes. -/
def WritesOnlyReg (s t : State) (dest : Reg) (v : Word) : Prop :=
  (∀ r, t.readReg r = if r = dest ∧ dest ≠ 0 then v else s.readReg r) ∧
    SameData s t ∧ SameStreams s t ∧ SameConfig s t ∧ t.status = s.status

/-- Everything but the program counter is as before. -/
def ChangesOnlyPc (s t : State) : Prop :=
  SameRegs s t ∧ SameData s t ∧ SameStreams s t ∧ SameConfig s t ∧ t.status = s.status

/-- The whole effect, but for the program counter, of an instruction that stores `count` bytes of `v` at address `a`,
the least significant byte first (20_memory.md R44). -/
def StoresOnlyBytes (s t : State) (a count : Nat) (v : Word) : Prop :=
  (∀ b, t.readByte b = if a ≤ b ∧ b < a + count then v.extractLsb' (8 * (b - a)) 8 else s.readByte b) ∧
    SameRegs s t ∧ SameStreams s t ∧ SameConfig s t ∧ t.status = s.status

/-- The whole effect of a service that prints `bytes` (44_register_type.md R142, R145). -/
def PrintsOnly (s t : State) (bytes : List Byte) : Prop :=
  t.out = s.out ++ bytes ∧ t.tr = s.tr ∧ t.pc = s.pc + 1 ∧ SameRegs s t ∧ SameData s t ∧ SameConfig s t ∧
    t.status = s.status

/-- The state after a halt with this reason: the status, and nothing else, differs (60_exceptions.md R156). -/
def HaltsWith (s t : State) (reason : HaltReason) : Prop := t = { s with status := .halted reason }

/-- An ASCII digit (R143). -/
def isDigitByte (b : Byte) : Bool := 0x30 ≤ b.toNat && b.toNat ≤ 0x39

/-- The number a run of ASCII digits writes in base 10. -/
def digitsWorth (ds : List Byte) : Nat := ds.foldl (fun acc b => acc * 10 + (b.toNat - 0x30)) 0

/-! ### The end of a run -/

/-- What the host can see of an ended run (60_exceptions.md R166). -/
structure Observation where
  /-- The halt reason. -/
  reason : HaltReason
  /-- The exit status (R165). -/
  exitStatus : Nat
  /-- `x[0..31]` as they read. -/
  regs : List Word
  /-- The index of the halting instruction or step. -/
  pc : Word
  /-- `DMEM[0..MEMSIZE-1]`. -/
  dmem : List Byte
  /-- `OUT`. -/
  out : List Byte
  /-- `TR`. -/
  tr : List TraceRecord
  deriving DecidableEq, Repr

/-- The observation of a run that has ended, none of one that has not (R166). -/
def State.observation (s : State) : Option Observation :=
  match s.status with
  | .running => none
  | .halted reason => some
    { reason := reason
      exitStatus := reason.exitStatus
      regs := (List.range 32).map fun r => s.readReg (BitVec.ofNat 5 r)
      pc := s.pc
      dmem := (List.range s.memsize.toNat).map s.readByte
      out := s.out
      tr := s.tr }

/-- The one successful end (44_register_type.md R135). -/
def State.succeeded (s : State) : Prop := ∃ t, s.status = .halted (.jrPastEnd t)

/-- The end that says nothing of the reference program, whose behaviour is undefined there: no claim of success or of
a particular output should pass through it (93_implementation_defined.md, section A; log entry 7). -/
def State.leftDefinedBehaviour (s : State) : Prop :=
  ∃ ea width dir, s.status = .halted (.outOfBounds ea width dir)

/-- What must be true of a state that carries a halt reason: the raising condition of 60_exceptions.md R150, read off
the state itself. -/
def HaltReason.ExplainedBy (s : State) : HaltReason → Prop
  | .jrPastEnd t =>
    s.hasNext = true ∧ ∃ rs, decode s.fetched = .ok (.jr rs) ∧ t = s.readReg rs ∧ s.n.toNat ≤ t.toNat
  | .exitSyscall => s.hasNext = true ∧ decode s.fetched = .ok .syscall ∧ s.readReg 2 = 10
  | .badInstruction w => s.hasNext = true ∧ w = s.fetched ∧ ∀ i, decode w ≠ .ok i
  | .badSyscall c =>
    s.hasNext = true ∧ decode s.fetched = .ok .syscall ∧ c = s.readReg 2 ∧ c ≠ 1 ∧ c ≠ 10 ∧ c ≠ 11
  | .pastEnd p => p = s.pc ∧ s.n.toNat ≤ s.pc.toNat
  | .outOfBounds ea width dir =>
    s.hasNext = true ∧ ∃ i rs imm, decode s.fetched = .ok i ∧ dataAccess i = some (width, dir, rs, imm) ∧
      ea = s.effectiveAddress rs imm ∧ s.memsize.toNat < ea.toNat + width.bytes

/-- The invariant of the machine. -/
structure State.Inv (s : State) : Prop where
  /-- Register 0's slot holds 0 (10_state.md R21). -/
  zeroSlot : s.regs[0] = 0
  /-- Data memory is in canonical form. -/
  dmemCanonical : Memory.wf s.dmem = true
  /-- Data memory lists only addresses below `MEMSIZE` (20_memory.md R41). -/
  dmemInRange : Memory.below s.memsize.toNat s.dmem = true
  /-- Instruction memory is in canonical form. -/
  imemCanonical : Memory.wf s.imem = true
  /-- Instruction memory lists only indices below `N` (R40). -/
  imemInRange : Memory.below s.n.toNat s.imem = true
  /-- With trace off the trace stream is empty (10_state.md R30). -/
  traceOff : s.trace = false → s.tr = []
  /-- Every trace record tells a fetch as instruction memory has it (R30; 20_memory.md R55). -/
  traceTrue : ∀ r ∈ s.tr, r.n = s.n ∧ r.pc.toNat < s.n.toNat ∧ r.w = Memory.read s.imem r.pc.toNat
  /-- A halted core's reason is the one its state explains (60_exceptions.md R150). -/
  haltExplained : ∀ reason, s.status = .halted reason → reason.ExplainedBy s

/-! ### Assembler lines (30_encoding.md R71) -/

/-- `MNEM a, b, c`. -/
def lineOfThree (m : String) (a b c : List Char) : List Token :=
  [.word m.toList, .word a, .comma, .word b, .comma, .word c]

/-- `MNEM a, off(b)`. -/
def lineOfAddress (m : String) (a off b : List Char) : List Token :=
  [.word m.toList, .word a, .comma, .word off, .opening, .word b, .closing]

/-- A line whose operands are in range has this word, which decodes to this instruction; otherwise it is refused. -/
def AssemblesAs (line : List Token) (inRange : Prop) (word : Nat) (i : Instr) : Prop :=
  (inRange → ∃ w, assembleTokens line = some w ∧ w.toNat = word ∧ decode w = .ok i) ∧
    (¬ inRange → assembleTokens line = none)

/-- ASCII bytes as characters. -/
def asciiText (bytes : List Byte) : List Char := bytes.map fun b => Char.ofNat b.toNat

/-- The hexadecimal digit of a value below 16. -/
def hexDigit (d : Nat) : Char := if d < 10 then Char.ofNat (48 + d) else Char.ofNat (87 + d)

/-- A 16-bit value as four hexadecimal digits. -/
def hexText (v : Imm) : List Char := [v.toNat / 4096, v.toNat / 256, v.toNat / 16, v.toNat].map fun d => hexDigit (d % 16)

end Sys2Proof.Machine
end

