-- ==== Sys2Proof/Certificates/Slice0/Obligations.lean ====
section
/-! DEFINITION. The statements for the provers. Each docstring names the rule of spec/ it rests on; where a clause rests
on a decision the spec takes for itself (92_eei_decisions.md), the docstring names the decision and its log entry. -/

open Sys2Proof Sys2Proof.Machine

/-! ### Encoding -/

/-- Decoding an encoded instruction gives it back, for every operand value (30_encoding.md R61, R73; the field positions
are decision D1, log entry 5). -/
def Obligations.DecodeOfEncodeIsIdentity : Prop := ∀ i : Instr, decode (encode i) = .ok i

/-- The words that decode to an instruction are exactly those that agree with its encoding on the examined bits, so
every value of an ignored bit decodes alike (30_encoding.md R64; decision D2, log entry 6). -/
def Obligations.DecodesExactlyWhenExaminedBitsAgree : Prop :=
  ∀ (w : Word) (i : Instr), decode w = .ok i ↔ w &&& examinedBits i = encode i

/-- The primary opcode map: the twelve opcodes that name an instruction with their I-format fields, opcode 0 dispatched
on the function code, and everything else illegal (30_encoding.md R66). -/
def Obligations.DecodeFollowsThePrimaryMap : Prop :=
  ∀ w : Word,
    (w.opcode = 0x04 → decode w = .ok (.beq w.rs w.rt w.imm)) ∧
    (w.opcode = 0x05 → decode w = .ok (.bne w.rs w.rt w.imm)) ∧
    (w.opcode = 0x08 → decode w = .ok (.addi w.rs w.rt w.imm)) ∧
    (w.opcode = 0x09 → decode w = .ok (.addiu w.rs w.rt w.imm)) ∧
    (w.opcode = 0x0D → decode w = .ok (.ori w.rs w.rt w.imm)) ∧
    (w.opcode = 0x0F → decode w = .ok (.lui w.rt w.imm)) ∧
    (w.opcode = 0x20 → decode w = .ok (.lb w.rs w.rt w.imm)) ∧
    (w.opcode = 0x21 → decode w = .ok (.lh w.rs w.rt w.imm)) ∧
    (w.opcode = 0x23 → decode w = .ok (.lw w.rs w.rt w.imm)) ∧
    (w.opcode = 0x28 → decode w = .ok (.sb w.rs w.rt w.imm)) ∧
    (w.opcode = 0x29 → decode w = .ok (.sh w.rs w.rt w.imm)) ∧
    (w.opcode = 0x2B → decode w = .ok (.sw w.rs w.rt w.imm)) ∧
    (w.opcode = 0 → ∀ v : Word, v.opcode = 0 → v.funct = w.funct →
      ((∃ i, decode v = .ok i) ↔ ∃ i, decode w = .ok i)) ∧
    (w.opcode ∉ ([0, 0x04, 0x05, 0x08, 0x09, 0x0D, 0x0F, 0x20, 0x21, 0x23, 0x28, 0x29, 0x2B] : List (BitVec 6)) →
      ∃ e, decode w = .error e)

/-- The function-code map of opcode 0 with its R-format fields, and everything else illegal (30_encoding.md R67; that
0x20 is ADD and 0x21 is illegal is decision D12, log entry 12). -/
def Obligations.DecodeFollowsTheFunctionMap : Prop :=
  ∀ w : Word, w.opcode = 0 →
    (w.funct = 0x02 → decode w = .ok (.mul w.rs w.rt w.rd)) ∧
    (w.funct = 0x08 → decode w = .ok (.jr w.rs)) ∧
    (w.funct = 0x0C → decode w = .ok .syscall) ∧
    (w.funct = 0x20 → decode w = .ok (.add w.rs w.rt w.rd)) ∧
    (w.funct = 0x2A → decode w = .ok (.slt w.rs w.rt w.rd)) ∧
    (w.funct ∉ ([0x02, 0x08, 0x0C, 0x20, 0x2A] : List (BitVec 6)) → ∃ e, decode w = .error e)

/-- A few words of 95_test_vectors.md, one or more for each family, and the words it calls illegal. -/
def Obligations.SpecWordsDecodeAsListed : Prop :=
  decode 0x20040005 = .ok (.addi 0 4 5) ∧ decode 0x3C278000 = .ok (.lui 7 0x8000) ∧
    decode 0x1022FFFD = .ok (.beq 1 2 0xFFFD) ∧ decode 0x8041FFFC = .ok (.lb 2 1 0xFFFC) ∧
    decode 0xA40B0002 = .ok (.sh 0 11 2) ∧ decode 0x00221FE0 = .ok (.add 1 2 3) ∧
    decode 0x03FFFFCC = .ok .syscall ∧ decode 0x03E00008 = .ok (.jr 31) ∧
    decode 0x00000000 = .error (.badFunct 0) ∧ decode 0x00000021 = .error (.badFunct 0x21) ∧
    decode 0xFC000000 = .error (.badOpcode 0x3F)

/-- The forms of R71 with R73's words spelt out in numbers. Whatever texts name register numbers `x`, `y`, `z` and an
immediate `v`, a line has its word, which decodes to its instruction, exactly when its registers are at most 31 and its
immediate fits: signed for ADDI, ADDIU, the branches, the loads and the stores, unsigned for ORI and LUI. The range of a
hexadecimal literal is the model's choice, log entry 28; the forms are decision D13 and the positions D1, log entry 5. -/
def Obligations.AssembledLinesDecodeToTheirInstruction : Prop :=
  ∀ (a b c imm : List Char) (x y z : Nat) (v : Int), registerOperand a = some x → registerOperand b = some y →
    registerOperand c = some z → immediateOperand imm = some v →
    AssemblesAs (lineOfThree "add" a b c) (x ≤ 31 ∧ y ≤ 31 ∧ z ≤ 31) (y * 2 ^ 21 + z * 2 ^ 16 + x * 2 ^ 11 + 0x20)
      (.add (.ofNat 5 y) (.ofNat 5 z) (.ofNat 5 x)) ∧
    AssemblesAs (lineOfThree "mul" a b c) (x ≤ 31 ∧ y ≤ 31 ∧ z ≤ 31) (y * 2 ^ 21 + z * 2 ^ 16 + x * 2 ^ 11 + 0x02)
      (.mul (.ofNat 5 y) (.ofNat 5 z) (.ofNat 5 x)) ∧
    AssemblesAs (lineOfThree "slt" a b c) (x ≤ 31 ∧ y ≤ 31 ∧ z ≤ 31) (y * 2 ^ 21 + z * 2 ^ 16 + x * 2 ^ 11 + 0x2A)
      (.slt (.ofNat 5 y) (.ofNat 5 z) (.ofNat 5 x)) ∧
    AssemblesAs [.word "jr".toList, .word a] (x ≤ 31) (x * 2 ^ 21 + 0x08) (.jr (.ofNat 5 x)) ∧
    AssemblesAs [.word "syscall".toList] True 0x0C .syscall ∧
    AssemblesAs (lineOfThree "addi" a b imm) (x ≤ 31 ∧ y ≤ 31 ∧ -32768 ≤ v ∧ v ≤ 32767)
      (0x08 * 2 ^ 26 + y * 2 ^ 21 + x * 2 ^ 16 + (v % 65536).toNat) (.addi (.ofNat 5 y) (.ofNat 5 x) (.ofInt 16 v)) ∧
    AssemblesAs (lineOfThree "addiu" a b imm) (x ≤ 31 ∧ y ≤ 31 ∧ -32768 ≤ v ∧ v ≤ 32767)
      (0x09 * 2 ^ 26 + y * 2 ^ 21 + x * 2 ^ 16 + (v % 65536).toNat) (.addiu (.ofNat 5 y) (.ofNat 5 x) (.ofInt 16 v)) ∧
    AssemblesAs (lineOfThree "ori" a b imm) (x ≤ 31 ∧ y ≤ 31 ∧ 0 ≤ v ∧ v ≤ 65535)
      (0x0D * 2 ^ 26 + y * 2 ^ 21 + x * 2 ^ 16 + v.toNat) (.ori (.ofNat 5 y) (.ofNat 5 x) (.ofInt 16 v)) ∧
    AssemblesAs [.word "lui".toList, .word a, .comma, .word imm] (x ≤ 31 ∧ 0 ≤ v ∧ v ≤ 65535)
      (0x0F * 2 ^ 26 + x * 2 ^ 16 + v.toNat) (.lui (.ofNat 5 x) (.ofInt 16 v)) ∧
    AssemblesAs (lineOfThree "beq" a b imm) (x ≤ 31 ∧ y ≤ 31 ∧ -32768 ≤ v ∧ v ≤ 32767)
      (0x04 * 2 ^ 26 + x * 2 ^ 21 + y * 2 ^ 16 + (v % 65536).toNat) (.beq (.ofNat 5 x) (.ofNat 5 y) (.ofInt 16 v)) ∧
    AssemblesAs (lineOfThree "bne" a b imm) (x ≤ 31 ∧ y ≤ 31 ∧ -32768 ≤ v ∧ v ≤ 32767)
      (0x05 * 2 ^ 26 + x * 2 ^ 21 + y * 2 ^ 16 + (v % 65536).toNat) (.bne (.ofNat 5 x) (.ofNat 5 y) (.ofInt 16 v)) ∧
    AssemblesAs (lineOfAddress "lb" a imm b) (x ≤ 31 ∧ y ≤ 31 ∧ -32768 ≤ v ∧ v ≤ 32767)
      (0x20 * 2 ^ 26 + y * 2 ^ 21 + x * 2 ^ 16 + (v % 65536).toNat) (.lb (.ofNat 5 y) (.ofNat 5 x) (.ofInt 16 v)) ∧
    AssemblesAs (lineOfAddress "lh" a imm b) (x ≤ 31 ∧ y ≤ 31 ∧ -32768 ≤ v ∧ v ≤ 32767)
      (0x21 * 2 ^ 26 + y * 2 ^ 21 + x * 2 ^ 16 + (v % 65536).toNat) (.lh (.ofNat 5 y) (.ofNat 5 x) (.ofInt 16 v)) ∧
    AssemblesAs (lineOfAddress "lw" a imm b) (x ≤ 31 ∧ y ≤ 31 ∧ -32768 ≤ v ∧ v ≤ 32767)
      (0x23 * 2 ^ 26 + y * 2 ^ 21 + x * 2 ^ 16 + (v % 65536).toNat) (.lw (.ofNat 5 y) (.ofNat 5 x) (.ofInt 16 v)) ∧
    AssemblesAs (lineOfAddress "sb" a imm b) (x ≤ 31 ∧ y ≤ 31 ∧ -32768 ≤ v ∧ v ≤ 32767)
      (0x28 * 2 ^ 26 + y * 2 ^ 21 + x * 2 ^ 16 + (v % 65536).toNat) (.sb (.ofNat 5 y) (.ofNat 5 x) (.ofInt 16 v)) ∧
    AssemblesAs (lineOfAddress "sh" a imm b) (x ≤ 31 ∧ y ≤ 31 ∧ -32768 ≤ v ∧ v ≤ 32767)
      (0x29 * 2 ^ 26 + y * 2 ^ 21 + x * 2 ^ 16 + (v % 65536).toNat) (.sh (.ofNat 5 y) (.ofNat 5 x) (.ofInt 16 v)) ∧
    AssemblesAs (lineOfAddress "sw" a imm b) (x ≤ 31 ∧ y ≤ 31 ∧ -32768 ≤ v ∧ v ≤ 32767)
      (0x2B * 2 ^ 26 + y * 2 ^ 21 + x * 2 ^ 16 + (v % 65536).toNat) (.sw (.ofNat 5 y) (.ofNat 5 x) (.ofInt 16 v))

/-- The numbers of assembler text are the numbers written: a decimal immediate, a register's decimal number after `$`, and
a hexadecimal immediate after `0x` (30_encoding.md R71; decision D13). That `-` may stand before a hexadecimal number is
the model's choice, log entry 29. -/
def Obligations.AssemblerReadsNumbersAsWritten : Prop :=
  (∀ v : Word, immediateOperand (asciiText (decText v)) = some v.toInt) ∧
    (∀ v : Word, 0 ≤ v.toInt → registerOperand ('$' :: asciiText (decText v)) = some v.toNat) ∧
    (∀ v : Imm, immediateOperand ('0' :: 'x' :: hexText v) = some (v.toNat : Int)) ∧
    (∀ v : Imm, immediateOperand ('-' :: '0' :: 'x' :: hexText v) = some (-(v.toNat : Int)))

/-- The text of a line divides at spaces and punctuation into lower-cased words, so that case does not matter
(30_encoding.md R71, mnemonics are case-insensitive; the division is the model's choice, log entry 16). -/
def Obligations.AssemblerLinesDivideIntoLowerCaseWords : Prop :=
  (∀ (m rest : List Char), m ≠ [] → (∀ c ∈ m, c ∉ [' ', '\t', ',', '(', ')']) →
    tokens [] m = [.word (m.map Char.toLower)] ∧
    tokens [] (m ++ ' ' :: rest) = .word (m.map Char.toLower) :: tokens [] rest ∧
    tokens [] (m ++ '\t' :: rest) = .word (m.map Char.toLower) :: tokens [] rest ∧
    tokens [] (m ++ ',' :: rest) = .word (m.map Char.toLower) :: .comma :: tokens [] rest ∧
    tokens [] (m ++ '(' :: rest) = .word (m.map Char.toLower) :: .opening :: tokens [] rest ∧
    tokens [] (m ++ ')' :: rest) = .word (m.map Char.toLower) :: .closing :: tokens [] rest) ∧
    (∀ rest : List Char, tokens [] (' ' :: rest) = tokens [] rest) ∧
    ∀ line : List Char, tokens [] (line.map Char.toUpper) = tokens [] line

/-- There is no pseudo-instruction: a line whose first word is none of the 17 mnemonics is refused (30_encoding.md R72;
decision D13). -/
def Obligations.OnlyTheSeventeenMnemonicsAssemble : Prop :=
  ∀ (m : List Char) (rest : List Token),
    m ∉ ["addi", "addiu", "ori", "lui", "beq", "bne", "lb", "lh", "lw", "sb", "sh", "sw", "add", "syscall", "mul", "slt",
      "jr"].map String.toList → assembleTokens (.word m :: rest) = none

/-! ### The step -/

/-- A running core whose `pc` is below `N` and whose word decodes executes that instruction, after the trace record
(40_fetch_dispatch.md R80, R82, R83, R84, R85, R87). -/
def Obligations.StepExecutesTheFetchedInstruction : Prop :=
  ∀ (s : State) (i : Instr), s.status = .running → s.pc.toNat < s.n.toNat →
    decode (Memory.read s.imem s.pc.toNat) = .ok i →
    step s = exec i
      (if s.trace then { s with tr := s.tr ++ [⟨s.pc, Memory.read s.imem s.pc.toNat, s.n⟩] } else s)

/-- A step at or past `N` halts with `PastEnd`, exit status 1, and changes nothing else, the first step of a run included;
no other step ends so; a halted core has no step (R80). -/
def Obligations.PastEndHaltsBeforeAnyFetch : Prop :=
  (∀ (s : State) (reason : HaltReason), s.status = .halted reason → ∀ t, step s ≠ .next t) ∧
    (∀ s : State, s.status = .running → s.n.toNat ≤ s.pc.toNat →
      ∃ t, step s = .next t ∧ HaltsWith s t (.pastEnd s.pc) ∧ (HaltReason.pastEnd s.pc).exitStatus = 1) ∧
    (∀ (s t : State) (p : Word), s.pc.toNat < s.n.toNat → step s = .next t → t.status ≠ .halted (.pastEnd p)) ∧
    (∀ (img : Image) (trace : Bool), img.n.toNat ≤ img.entry.toNat →
      ∃ t, step (State.boot img trace) = .next t ∧ HaltsWith (State.boot img trace) t (.pastEnd img.entry))

/-- Fetching an illegal word halts with `BadInstruction` of the whole word; nothing else but the trace record happens
(R84). -/
def Obligations.IllegalWordHaltsTheRun : Prop :=
  ∀ (s : State) (e : DecodeError), s.status = .running → s.pc.toNat < s.n.toNat →
    decode (Memory.read s.imem s.pc.toNat) = .error e →
    step s = .next
      { s with
        status := .halted (.badInstruction (Memory.read s.imem s.pc.toNat))
        tr := if s.trace then s.tr ++ [⟨s.pc, Memory.read s.imem s.pc.toNat, s.n⟩] else s.tr }

/-- Every step that fetches with trace on appends one record, and no other step appends any; the record changes no
other state, since the same step with trace off gives the same state but for the trace (R83). -/
def Obligations.TraceRecordsEveryFetchAndNothingElse : Prop :=
  ∀ s t : State, step s = .next t →
    t.tr = (if s.trace = true ∧ s.pc.toNat < s.n.toNat then
      s.tr ++ [⟨s.pc, Memory.read s.imem s.pc.toNat, s.n⟩] else s.tr) ∧
    step { s with trace := false } = .next { t with trace := false, tr := s.tr }

/-- Only the print services append to `OUT`, nothing is ever taken from it, and no step reads it; it is empty at reset
(10_state.md R29). -/
def Obligations.OnlyPrintServicesAppendToOut : Prop :=
  (∀ (img : Image) (trace : Bool), (State.boot img trace).out = []) ∧
    ∀ s t : State, step s = .next t → ∃ bytes : List Byte,
      t.out = s.out ++ bytes ∧
      (bytes ≠ [] → decode s.fetched = .ok .syscall ∧ (s.readReg 2 = 1 ∨ s.readReg 2 = 11)) ∧
      ∀ o : List Byte, step { s with out := o } = .next { t with out := o ++ bytes }

/-- A core has a next step exactly while it runs: no instruction and no word leaves it without one (70_reset_and_hazards.md
R197, 10_state.md R28). -/
def Obligations.CoreStepsExactlyWhileRunning : Prop :=
  ∀ s : State, (∃ t, step s = .next t) ↔ s.status = .running

/-- A step that ends the run changes the status and the trace and nothing else (60_exceptions.md R156; decision D7, log
entry 9). -/
def Obligations.HaltsArePrecise : Prop :=
  ∀ (s t : State) (reason : HaltReason), step s = .next t → t.status = .halted reason →
    t = { s with status := .halted reason, tr := t.tr }

/-- A halted run never resumes: however many more steps are asked for, none is taken (60_exceptions.md R157, 10_state.md
R28). -/
def Obligations.HaltedRunNeverResumes : Prop :=
  ∀ (s : State) (reason : HaltReason) (k : Nat), s.status = .halted reason →
    Host.Core.run core (k + 1) s = .fault (.halted reason)

/-- The latches hold what the launch gave them: no instruction and no step writes one (10_state.md R27). -/
def Obligations.LatchesKeepTheirLaunchValues : Prop :=
  (∀ (i : Instr) (s t : State), exec i s = .next t → SameConfig s t) ∧
    (∀ s t : State, step s = .next t → SameConfig s t) ∧
    (∀ (img : Image) (trace : Bool), img.wellFormed = true →
      (State.boot img trace).n = img.n ∧ (State.boot img trace).entry = img.entry ∧
      (State.boot img trace).memsize = img.memsize ∧ (State.boot img trace).trace = trace ∧
      ∀ k, k < img.n.toNat → some (Memory.read (State.boot img trace).imem k) = img.imem[k]?)

/-- The only register an instruction can change is the one 10_state.md R22 names for it. -/
def Obligations.OnlyTheDestinationRegisterChanges : Prop :=
  ∀ (i : Instr) (s t : State) (r : Reg), exec i s = .next t → i.dest ≠ some r → t.readReg r = s.readReg r

/-- Register 0 reads 0 in every state; an instruction whose destination it is changes nothing but `pc` when it goes on;
and a load to it still performs its bounds check: it ends the run exactly when the same load to any other register does
(10_state.md R21). -/
def Obligations.RegisterZeroIsTiedToZero : Prop :=
  (∀ s : State, s.readReg 0 = 0) ∧
    (∀ (i : Instr) (s t : State), i.dest = some 0 → s.status = .running → exec i s = .next t →
      t.status = .running → t = { s with pc := s.pc + 1 }) ∧
    (∀ (i j : Instr) (s t u : State) (width : Width) (rs : Reg) (imm : Imm) (reason : HaltReason),
      dataAccess i = some (width, .load, rs, imm) → i.dest = some 0 → dataAccess j = some (width, .load, rs, imm) →
      exec i s = .next t → exec j s = .next u → (t.status = .halted reason ↔ u.status = .halted reason))

/-- Data memory changes only by a store, and then only inside the bytes it names (20_memory.md R40, R44, R45). -/
def Obligations.OnlyStoresChangeDataMemory : Prop :=
  ∀ (i : Instr) (s t : State) (b : Nat), exec i s = .next t → t.readByte b ≠ s.readByte b →
    ∃ width rs imm, dataAccess i = some (width, .store, rs, imm) ∧ (s.effectiveAddress rs imm).toNat ≤ b ∧
      b < (s.effectiveAddress rs imm).toNat + width.bytes ∧ b < s.memsize.toNat

/-- While the run goes on, the program counter advances by 1 unless a branch or JR redirects it (40_fetch_dispatch.md
R86, 10_state.md R24). -/
def Obligations.OnlyBranchesAndJrRedirectThePc : Prop :=
  ∀ (i : Instr) (s t : State), s.status = .running → exec i s = .next t → t.status = .running →
    i.mayRedirect = false → t.pc = s.pc + 1

/-- Exit status 0 belongs to `JrPastEnd` alone, and every other halt reason and every loader failure has 1 (60_exceptions.md
R165). -/
def Obligations.ExitStatusIsZeroForJrPastEndAlone : Prop :=
  (∀ t : Word, (HaltReason.jrPastEnd t).exitStatus = 0) ∧
    (∀ reason : HaltReason, (∀ t, reason ≠ .jrPastEnd t) → reason.exitStatus = 1) ∧
    ∀ f : LoadFailure, f.exitStatus = 1

/-- A step ends the run with exit status 0 exactly when it executes a JR whose register is at or beyond `N`
(44_register_type.md R135). -/
def Obligations.OnlyJrPastEndExitsWithZero : Prop :=
  ∀ s t : State, step s = .next t →
    ((∃ reason, t.status = .halted reason ∧ reason.exitStatus = 0) ↔
      s.pc.toNat < s.n.toNat ∧ ∃ rs, decode s.fetched = .ok (.jr rs) ∧ s.n.toNat ≤ (s.readReg rs).toNat)

/-- The invariant holds after every step from a state in which it holds: register 0's slot is 0, both memories are
canonical and in range, the trace tells the truth, and a halt reason is explained by the state. -/
def Obligations.StepKeepsTheInvariant : Prop := ∀ s t : State, s.Inv → step s = .next t → t.Inv

/-- The invariant holds at reset (log entry 1: the reset constant is the reset from the empty image, the model's
choice). -/
def Obligations.InvariantHoldsAtReset : Prop := State.reset.Inv

/-- The invariant holds after a reset from any image. -/
def Obligations.InvariantHoldsAfterEveryBoot : Prop :=
  ∀ (img : Image) (trace : Bool), (State.boot img trace).Inv

/-- Two canonical memories that read alike everywhere are the same data (the model's own representation, log
entry 4). -/
def Obligations.CanonicalMemoriesThatReadAlikeAreEqual : Prop :=
  ∀ (w : Nat) (m m' : Memory w), Memory.wf m = true → Memory.wf m' = true →
    (∀ k, Memory.read m k = Memory.read m' k) → m = m'

/-! ### Launch and reset -/

/-- What reset leaves in every piece of state (70_reset_and_hazards.md R180, R181; step 5 is the spec's own derivation). -/
def Obligations.BootSetsEveryPieceOfState : Prop :=
  ∀ (img : Image) (trace : Bool), img.wellFormed = true →
    (∀ r : Reg, (State.boot img trace).readReg r = if r = 31 then img.n else 0) ∧
    (State.boot img trace).pc = img.entry ∧
    (∀ k, k < img.memsize.toNat → some ((State.boot img trace).readByte k) = img.init[k]?) ∧
    (State.boot img trace).status = .running ∧
    (State.boot img trace).out = [] ∧ (State.boot img trace).tr = []

/-- The reset constant is the launch of a file that holds its magic alone (log entry 1, the model's choice; R191 gives the
zeros). -/
def Obligations.ResetIsTheLaunchOfAMagicOnlyFile : Prop :=
  ∀ p : LoaderParams, p.allocOk 0 0 = true → launch p (some p.magic.toList) false = .ok State.reset

/-- The loader fails for an unreadable file, a wrong magic or a failed allocation, and for nothing else
(70_reset_and_hazards.md R186; the open parameters are decisions D14 and D21). -/
def Obligations.LoaderFailsInThreeCasesOnly : Prop :=
  ∀ p : LoaderParams, load p none = .error .unreadable ∧
    ∀ file : List Byte,
      (load p (some file) = .error .badMagic ↔ ∃ k, ∃ h : k < 4, fileByte file k ≠ p.magic[k]) ∧
      (load p (some file) = .error .allocation ↔
        (∀ k, ∀ h : k < 4, fileByte file k = p.magic[k]) ∧
          p.allocOk (readImage file).n (readImage file).memsize = false) ∧
      load p (some file) ≠ .error .unreadable

/-- Loading the container of a well-formed image gives the image back, whatever bytes follow (R187, R188, R189, R190;
trailing bytes are decision D18, log entry 14). -/
def Obligations.LoadReadsBackEveryContainer : Prop :=
  ∀ (p : LoaderParams) (img : Image) (tail : List Byte), img.wellFormed = true →
    p.allocOk img.n img.memsize = true → load p (some (container p.magic img ++ tail)) = .ok img

/-- Zero bytes after the end of a file change nothing: where the file ends before a field does they are the zeros that
R191 reads there, and where the file is complete they are trailing bytes, which R192 ignores (decision D18, log
entry 14). -/
def Obligations.MissingFileBytesReadAsZero : Prop :=
  ∀ (p : LoaderParams) (file : List Byte) (k : Nat),
    load p (some (file ++ List.replicate k 0)) = load p (some file)

/-! ### Immediate ALU instructions -/

/-- ADDI: encoding, result modulo 2^32, and nothing else but the advance of `pc` (41_immediate_alu.md R90; that the sum
wraps is the spec's own derivation, 00_scope.md R9, log entry 22). -/
def Obligations.AddiAddsTheSignedImmediate : Prop :=
  ∀ (rs rt : Reg) (imm : Imm), decode (0x08#6 ++ rs ++ rt ++ imm) = .ok (.addi rs rt imm) ∧
    ∀ s : State, ∃ t, exec (.addi rs rt imm) s = .next t ∧
      WritesOnlyReg s t rt (BitVec.ofInt 32 ((s.readReg rs).toNat + imm.toInt)) ∧ t.pc = s.pc + 1

/-- ADDIU: its own encoding and ADDI's result (41_immediate_alu.md R91; decision D16). -/
def Obligations.AddiuComputesAsAddi : Prop :=
  ∀ (rs rt : Reg) (imm : Imm), decode (0x09#6 ++ rs ++ rt ++ imm) = .ok (.addiu rs rt imm) ∧
    ∀ s : State, exec (.addiu rs rt imm) s = exec (.addi rs rt imm) s ∧
      ∃ t, exec (.addiu rs rt imm) s = .next t ∧
        WritesOnlyReg s t rt (BitVec.ofInt 32 ((s.readReg rs).toNat + imm.toInt)) ∧ t.pc = s.pc + 1

/-- ORI: the upper half passes through and the lower half is OR-ed with the immediate (41_immediate_alu.md R92). -/
def Obligations.OriSetsLowBitsOnly : Prop :=
  ∀ (rs rt : Reg) (imm : Imm), decode (0x0D#6 ++ rs ++ rt ++ imm) = .ok (.ori rs rt imm) ∧
    ∀ s : State, ∃ t, exec (.ori rs rt imm) s = .next t ∧
      WritesOnlyReg s t rt
        ((s.readReg rs).extractLsb' 16 16 ++ ((s.readReg rs).extractLsb' 0 16 ||| imm)) ∧ t.pc = s.pc + 1

/-- LUI: the immediate times 2^16; the rs field is not read (41_immediate_alu.md R93). -/
def Obligations.LuiLoadsTheUpperHalf : Prop :=
  ∀ (rs rt : Reg) (imm : Imm), decode (0x0F#6 ++ rs ++ rt ++ imm) = .ok (.lui rt imm) ∧
    ∀ s : State, ∃ t, exec (.lui rt imm) s = .next t ∧
      WritesOnlyReg s t rt (BitVec.ofNat 32 (imm.toNat * 65536)) ∧ t.pc = s.pc + 1

/-- LUI and then ORI on one register other than 0 build any 32-bit constant there (41_immediate_alu.md R94). -/
def Obligations.LuiThenOriBuildsAnyConstant : Prop :=
  ∀ (s : State) (r : Reg) (k : Word), r ≠ 0 → ∃ t u,
    exec (.lui r (k.extractLsb' 16 16)) s = .next t ∧ exec (.ori r r (k.extractLsb' 0 16)) t = .next u ∧
      WritesOnlyReg s u r k ∧ u.pc = s.pc + 2

/-! ### Branches -/

/-- BEQ: taken exactly when all 32 bits agree, relative to itself, writing nothing (42_branches.md R100, R89; the wrap
modulo 2^32 is decision D4, log entry 8). -/
def Obligations.BeqRedirectsWhenEqual : Prop :=
  ∀ (rs rt : Reg) (imm : Imm), decode (0x04#6 ++ rs ++ rt ++ imm) = .ok (.beq rs rt imm) ∧
    ∀ s : State, ∃ t, exec (.beq rs rt imm) s = .next t ∧ ChangesOnlyPc s t ∧
      t.pc = if s.readReg rs = s.readReg rt then BitVec.ofInt 32 (s.pc.toNat + imm.toInt) else s.pc + 1

/-- BNE: taken exactly when the registers differ (42_branches.md R101, R89; the wrap is decision D4, log entry 8). -/
def Obligations.BneRedirectsWhenDifferent : Prop :=
  ∀ (rs rt : Reg) (imm : Imm), decode (0x05#6 ++ rs ++ rt ++ imm) = .ok (.bne rs rt imm) ∧
    ∀ s : State, ∃ t, exec (.bne rs rt imm) s = .next t ∧ ChangesOnlyPc s t ∧
      t.pc = if s.readReg rs = s.readReg rt then s.pc + 1 else BitVec.ofInt 32 (s.pc.toNat + imm.toInt)

/-- A branch, BEQ or BNE, that is taken to a target at or above `N` completes, and the next step halts with `PastEnd` of the
target and exit status 1 (42_branches.md R104; decision D4). -/
def Obligations.BranchPastTheEndFailsInTheNextStep : Prop :=
  ∀ (s : State) (rs rt : Reg) (imm : Imm), s.status = .running → s.pc.toNat < s.n.toNat →
    (decode s.fetched = .ok (.beq rs rt imm) ∧ s.readReg rs = s.readReg rt ∨
      decode s.fetched = .ok (.bne rs rt imm) ∧ s.readReg rs ≠ s.readReg rt) →
    s.n.toNat ≤ (s.branchTarget imm).toNat → ∃ t u, step s = .next t ∧ t.status = .running ∧
      t.pc = s.branchTarget imm ∧ step t = .next u ∧ HaltsWith t u (.pastEnd (s.branchTarget imm)) ∧
      (HaltReason.pastEnd (s.branchTarget imm)).exitStatus = 1

/-- A taken branch to itself, BEQ or BNE, runs for any number of steps, and never ends (42_branches.md R103, 40_fetch_dispatch.md R88). -/
def Obligations.BranchToItselfNeverEnds : Prop :=
  ∀ (s : State) (rs rt : Reg), s.status = .running → s.pc.toNat < s.n.toNat →
    (decode s.fetched = .ok (.beq rs rt 0) ∧ s.readReg rs = s.readReg rt ∨
      decode s.fetched = .ok (.bne rs rt 0) ∧ s.readReg rs ≠ s.readReg rt) →
    ∀ k : Nat, ∃ t, Host.Core.run core k s = .next t ∧ t = { s with tr := t.tr }

/-! ### Loads and stores -/

/-- The effective address, modulo 2^32, with a sign-extended offset (20_memory.md R43). -/
def Obligations.EffectiveAddressAddsTheSignedOffset : Prop :=
  ∀ (s : State) (rs : Reg) (imm : Imm),
    s.effectiveAddress rs imm = BitVec.ofInt 32 ((s.readReg rs).toNat + imm.toInt)

/-- In-bounds loads: little-endian, sign-extended for a byte and a half-word, at any alignment, changing the destination
register alone (43_loads_stores.md R110, R111, R112; 20_memory.md R44, R46). -/
def Obligations.LoadsReadLittleEndianBytes : Prop :=
  ∀ (rs rt : Reg) (imm : Imm) (s : State) (ea : Nat), (s.effectiveAddress rs imm).toNat = ea →
    (ea + 1 ≤ s.memsize.toNat → ∃ t, exec (.lb rs rt imm) s = .next t ∧
      WritesOnlyReg s t rt ((s.readByte ea).signExtend 32) ∧ t.pc = s.pc + 1) ∧
    (ea + 2 ≤ s.memsize.toNat → ∃ t, exec (.lh rs rt imm) s = .next t ∧
      WritesOnlyReg s t rt ((s.readByte (ea + 1) ++ s.readByte ea).signExtend 32) ∧ t.pc = s.pc + 1) ∧
    (ea + 4 ≤ s.memsize.toNat → ∃ t, exec (.lw rs rt imm) s = .next t ∧
      WritesOnlyReg s t rt
        (s.readByte (ea + 3) ++ s.readByte (ea + 2) ++ s.readByte (ea + 1) ++ s.readByte ea) ∧ t.pc = s.pc + 1)

/-- In-bounds stores: the low bytes of the register, least significant first, at any alignment, and no other byte and no
register (43_loads_stores.md R113, R114, R115; 20_memory.md R44, R46). -/
def Obligations.StoresWriteExactlyTheirBytes : Prop :=
  ∀ (rs rt : Reg) (imm : Imm) (s : State) (ea : Nat), (s.effectiveAddress rs imm).toNat = ea →
    (ea + 1 ≤ s.memsize.toNat → ∃ t, exec (.sb rs rt imm) s = .next t ∧
      StoresOnlyBytes s t ea 1 (s.readReg rt) ∧ t.pc = s.pc + 1) ∧
    (ea + 2 ≤ s.memsize.toNat → ∃ t, exec (.sh rs rt imm) s = .next t ∧
      StoresOnlyBytes s t ea 2 (s.readReg rt) ∧ t.pc = s.pc + 1) ∧
    (ea + 4 ≤ s.memsize.toNat → ∃ t, exec (.sw rs rt imm) s = .next t ∧
      StoresOnlyBytes s t ea 4 (s.readReg rt) ∧ t.pc = s.pc + 1)

/-- An access with a byte outside `0..MEMSIZE-1` halts before any byte moves, for all six instructions (20_memory.md
section 2, 43_loads_stores.md; the outcome is decision D3, log entry 7). -/
def Obligations.OutOfBoundsAccessesHaltBeforeAnyEffect : Prop :=
  ∀ (i : Instr) (s : State) (width : Width) (dir : Direction) (rs : Reg) (imm : Imm),
    dataAccess i = some (width, dir, rs, imm) →
    s.memsize.toNat < (s.effectiveAddress rs imm).toNat + width.bytes →
    ∃ t, exec i s = .next t ∧ HaltsWith s t (.outOfBounds (s.effectiveAddress rs imm) width dir)

/-- The round trips of 43_loads_stores.md R116: a load at the address just stored to gives the stored bytes back,
sign-extended for a half-word and a byte. -/
def Obligations.LoadAfterStoreGivesTheStoredValue : Prop :=
  ∀ (s t : State) (rs rt rb rc : Reg) (imm off : Imm), rc ≠ 0 →
    t.effectiveAddress rb off = s.effectiveAddress rs imm →
    ((s.effectiveAddress rs imm).toNat + 4 ≤ s.memsize.toNat → exec (.sw rs rt imm) s = .next t →
      ∃ u, exec (.lw rb rc off) t = .next u ∧ u.readReg rc = s.readReg rt) ∧
    ((s.effectiveAddress rs imm).toNat + 2 ≤ s.memsize.toNat → exec (.sh rs rt imm) s = .next t →
      ∃ u, exec (.lh rb rc off) t = .next u ∧ u.readReg rc = ((s.readReg rt).setWidth 16).signExtend 32) ∧
    ((s.effectiveAddress rs imm).toNat + 1 ≤ s.memsize.toNat → exec (.sb rs rt imm) s = .next t →
      ∃ u, exec (.lb rb rc off) t = .next u ∧ u.readReg rc = ((s.readReg rt).setWidth 8).signExtend 32)

/-- Accesses of different widths see one another byte by byte (20_memory.md R47). -/
def Obligations.MixedWidthAccessesAliasByByte : Prop :=
  ∀ (s : State) (a : Nat) (v : Word),
    (∀ k, k < 4 → (s.memWrite a 4 v).memRead (a + k) 1 = (v.extractLsb' (8 * k) 8).zeroExtend 32) ∧
    (∀ k, k < 3 → (s.memWrite a 4 v).memRead (a + k) 2 = (v.extractLsb' (8 * k) 16).zeroExtend 32) ∧
    (∀ b n k, n ≤ 4 → k < 4 → ((s.memWrite b n v).memRead a 4).extractLsb' (8 * k) 8 =
      if b ≤ a + k ∧ a + k < b + n then v.extractLsb' (8 * (a + k - b)) 8 else s.readByte (a + k))

/-! ### Register-type instructions and services -/

/-- ADD: the sum modulo 2^32; shamt is not read (44_register_type.md R130; that the sum wraps is the spec's own
derivation, 00_scope.md R9, log entry 22). -/
def Obligations.AddAddsRegistersModulo : Prop :=
  ∀ (rs rt rd shamt : Reg), decode (0#6 ++ rs ++ rt ++ rd ++ shamt ++ 0x20#6) = .ok (.add rs rt rd) ∧
    ∀ s : State, ∃ t, exec (.add rs rt rd) s = .next t ∧
      WritesOnlyReg s t rd (BitVec.ofNat 32 ((s.readReg rs).toNat + (s.readReg rt).toNat)) ∧ t.pc = s.pc + 1

/-- MUL: the low 32 bits of the product (44_register_type.md R132). -/
def Obligations.MulKeepsTheLowProduct : Prop :=
  ∀ (rs rt rd shamt : Reg), decode (0#6 ++ rs ++ rt ++ rd ++ shamt ++ 0x02#6) = .ok (.mul rs rt rd) ∧
    ∀ s : State, ∃ t, exec (.mul rs rt rd) s = .next t ∧
      WritesOnlyReg s t rd (BitVec.ofNat 32 ((s.readReg rs).toNat * (s.readReg rt).toNat)) ∧ t.pc = s.pc + 1

/-- SLT: 1 when the first register is below the second as unsigned numbers, else 0 (44_register_type.md R133). -/
def Obligations.SltComparesUnsigned : Prop :=
  ∀ (rs rt rd shamt : Reg), decode (0#6 ++ rs ++ rt ++ rd ++ shamt ++ 0x2A#6) = .ok (.slt rs rt rd) ∧
    ∀ s : State, ∃ t, exec (.slt rs rt rd) s = .next t ∧
      WritesOnlyReg s t rd (if s.readReg rs < s.readReg rt then 1 else 0) ∧ t.pc = s.pc + 1

/-- JR: a target below `N` is the next index, and any other ends the run with `JrPastEnd` and exit status 0
(44_register_type.md R134). -/
def Obligations.JrJumpsOrEndsTheRun : Prop :=
  ∀ (rs rt rd shamt : Reg), decode (0#6 ++ rs ++ rt ++ rd ++ shamt ++ 0x08#6) = .ok (.jr rs) ∧
    ∀ s : State,
      ((s.readReg rs).toNat < s.n.toNat →
        ∃ t, exec (.jr rs) s = .next t ∧ ChangesOnlyPc s t ∧ t.pc = s.readReg rs) ∧
      (s.n.toNat ≤ (s.readReg rs).toNat →
        ∃ t, exec (.jr rs) s = .next t ∧ HaltsWith s t (.jrPastEnd (s.readReg rs)) ∧
          (HaltReason.jrPastEnd (s.readReg rs)).exitStatus = 0)

/-- SYSCALL with code 10, and with a code that names no service: the run ends with exit status 1, before anything is
emitted or written (44_register_type.md R144, R146). -/
def Obligations.SyscallEndsTheRunByItsCode : Prop :=
  ∀ s : State,
    (s.readReg 2 = 10 → ∃ t, exec .syscall s = .next t ∧ HaltsWith s t .exitSyscall ∧
      HaltReason.exitSyscall.exitStatus = 1) ∧
    (s.readReg 2 ∉ ([1, 10, 11] : List Word) → ∃ t, exec .syscall s = .next t ∧
      HaltsWith s t (.badSyscall (s.readReg 2)) ∧ (HaltReason.badSyscall (s.readReg 2)).exitStatus = 1 ∧
      (HaltReason.badSyscall (s.readReg 2)).diagnostic = some "bad syscall number")

/-- SYSCALL with code 1 and with code 11: the decimal text of `x[4]` and a newline, or its low byte, goes to `OUT`,
nothing else changes but `pc`, and the run goes on (44_register_type.md R140, R141, R142, R145; the text is decision D8,
log entry 10, and the raw byte is decision D17, log entry 11). -/
def Obligations.SyscallPrintsItsArgument : Prop :=
  ∀ s : State,
    (s.readReg 2 = 1 → ∃ t, exec .syscall s = .next t ∧ PrintsOnly s t (decText (s.readReg 4) ++ [0x0A])) ∧
    (s.readReg 2 = 11 → ∃ t, exec .syscall s = .next t ∧ PrintsOnly s t [(s.readReg 4).extractLsb' 0 8])

/-- Every word whose opcode is 0 and whose function code is 0x0C is SYSCALL (44_register_type.md section 1; the ignored
bits are decision D2, log entry 6). -/
def Obligations.SyscallIgnoresItsOtherBits : Prop :=
  ∀ free : BitVec 20, decode (0#6 ++ free ++ 0x0C#6) = .ok .syscall

/-- The decimal text: a `-` exactly for a negative number, then one or more digits worth its absolute value, with no
leading zero (44_register_type.md section 2; the form is decision D8, log entry 10). -/
def Obligations.DecimalTextSpellsTheSignedValue : Prop :=
  ∀ v : Word, ∃ ds : List Byte, decText v = (if v.toInt < 0 then [0x2D] else []) ++ ds ∧ ds ≠ [] ∧
    ds.all isDigitByte = true ∧ digitsWorth ds = v.toInt.natAbs ∧ (ds.head? = some 0x30 → ds = [0x30])
end

