-- ==== Sys2Proof/Laws/Fields.lean ====
section
/-! SUPPORT. The fields of a packed word, each read back once (30_encoding.md R61, R73). -/

namespace Sys2Proof

variable (op f : BitVec 6) (rs rt rd : Reg) (imm : Imm)

theorem opcode_packI : (packI op rs rt imm).opcode = op := by
  apply BitVec.eq_of_getLsbD_eq
  intro k hk
  simp only [packI, Word.opcode, BitVec.getLsbD_append, BitVec.getLsbD_extractLsb']
  interval_cases k <;> simp

theorem rs_packI : (packI op rs rt imm).rs = rs := by
  apply BitVec.eq_of_getLsbD_eq
  intro k hk
  simp only [packI, Word.rs, BitVec.getLsbD_append, BitVec.getLsbD_extractLsb']
  interval_cases k <;> simp

theorem rt_packI : (packI op rs rt imm).rt = rt := by
  apply BitVec.eq_of_getLsbD_eq
  intro k hk
  simp only [packI, Word.rt, BitVec.getLsbD_append, BitVec.getLsbD_extractLsb']
  interval_cases k <;> simp

theorem imm_packI : (packI op rs rt imm).imm = imm := by
  apply BitVec.eq_of_getLsbD_eq
  intro k hk
  simp only [packI, Word.imm, BitVec.getLsbD_append, BitVec.getLsbD_extractLsb']
  interval_cases k <;> simp

theorem opcode_packR : (packR rs rt rd f).opcode = 0 := by
  apply BitVec.eq_of_getLsbD_eq
  intro k hk
  simp only [packR, Word.opcode, BitVec.getLsbD_append, BitVec.getLsbD_extractLsb']
  interval_cases k <;> simp

theorem funct_packR : (packR rs rt rd f).funct = f := by
  apply BitVec.eq_of_getLsbD_eq
  intro k hk
  simp only [packR, Word.funct, BitVec.getLsbD_append, BitVec.getLsbD_extractLsb']
  interval_cases k <;> simp

theorem rs_packR : (packR rs rt rd f).rs = rs := by
  apply BitVec.eq_of_getLsbD_eq
  intro k hk
  simp only [packR, Word.rs, BitVec.getLsbD_append, BitVec.getLsbD_extractLsb']
  interval_cases k <;> simp

theorem rt_packR : (packR rs rt rd f).rt = rt := by
  apply BitVec.eq_of_getLsbD_eq
  intro k hk
  simp only [packR, Word.rt, BitVec.getLsbD_append, BitVec.getLsbD_extractLsb']
  interval_cases k <;> simp

theorem rd_packR : (packR rs rt rd f).rd = rd := by
  apply BitVec.eq_of_getLsbD_eq
  intro k hk
  simp only [packR, Word.rd, BitVec.getLsbD_append, BitVec.getLsbD_extractLsb']
  interval_cases k <;> simp

/-- Under the I-format mask only the opcode remains. -/
theorem packI_masked : packI op rs rt imm &&& 0xFC000000 = packI op 0 0 0 := by
  apply BitVec.eq_of_getLsbD_eq
  intro k hk
  simp only [packI, BitVec.getLsbD_and, BitVec.getLsbD_append]
  interval_cases k <;> simp

/-- Under the R-format mask only the function code remains. -/
theorem packR_masked : packR rs rt rd f &&& 0xFC00003F = packR 0 0 0 f := by
  apply BitVec.eq_of_getLsbD_eq
  intro k hk
  simp only [packR, BitVec.getLsbD_and, BitVec.getLsbD_append]
  interval_cases k <;> simp

end Sys2Proof
end

