-- ==== Sys2Proof/Laws/Memory.lean ====
section
/-! SUPPORT. The laws of canonical memories: a read after a write, and that every operation keeps the form. -/

namespace Sys2Proof.Machine

variable {w : Nat}

theorem Memory.read_erase (m : Memory w) (k j : Nat) :
    Memory.read (Memory.erase m k) j = if j = k then 0 else Memory.read m j := by
  induction m with
  | nil => simp [Memory.erase, Memory.read]
  | cons c m ih =>
    obtain ⟨a, v⟩ := c
    simp only [Memory.erase] at ih
    by_cases ha : a = k
    · subst ha
      simp only [Memory.erase, List.filter_cons, bne_self_eq_false, Bool.false_eq_true, if_false, ih, Memory.read]
      split <;> rfl
    · simp only [Memory.erase, List.filter_cons, bne_iff_ne, ne_eq, ha, not_false_eq_true, if_true, Memory.read, ih]
      by_cases hj : j = a
      · subst hj; simp [ha]
      · simp [hj]

theorem Memory.read_insert (m : Memory w) (k : Nat) (x : BitVec w) (j : Nat) (h : ∀ c ∈ m, c.1 ≠ k) :
    Memory.read (Memory.insert m k x) j = if j = k then x else Memory.read m j := by
  induction m with
  | nil => simp [Memory.insert, Memory.read]
  | cons c m ih =>
    obtain ⟨a, v⟩ := c
    have ha : a ≠ k := h (a, v) (by simp)
    unfold Memory.insert
    split
    · simp [Memory.read]
    · simp only [Memory.read, ih fun c hc => h c (by simp [hc])]
      by_cases hj : j = a
      · subst hj; simp [ha]
      · simp [hj]

/-- A read after a write, for every memory: the written address holds the value and no other address changes. -/
theorem Memory.read_write (m : Memory w) (k : Nat) (x : BitVec w) (j : Nat) :
    Memory.read (Memory.write m k x) j = if j = k then x else Memory.read m j := by
  unfold Memory.write
  split
  · next h => rw [Memory.read_erase, h]
  · rw [Memory.read_insert _ _ _ _ (by simp [Memory.erase]), Memory.read_erase]
    split <;> rfl

/-! ### The canonical form -/

theorem Memory.wfFrom_mono {lo lo' : Nat} (h : lo' ≤ lo) {m : Memory w} (hm : Memory.wfFrom lo m = true) :
    Memory.wfFrom lo' m = true := by
  cases m with
  | nil => rfl
  | cons c m =>
    simp only [Memory.wfFrom, Bool.and_eq_true, decide_eq_true_eq] at hm ⊢
    exact ⟨⟨by omega, hm.1.2⟩, hm.2⟩

theorem Memory.wfFrom_erase {lo : Nat} {m : Memory w} (hm : Memory.wfFrom lo m = true) (k : Nat) :
    Memory.wfFrom lo (Memory.erase m k) = true := by
  induction m generalizing lo with
  | nil => rfl
  | cons c m ih =>
    simp only [Memory.wfFrom, Bool.and_eq_true, decide_eq_true_eq] at hm
    have ih' := ih hm.2
    simp only [Memory.erase] at ih' ⊢
    rw [List.filter_cons]
    split
    · simp only [Memory.wfFrom, Bool.and_eq_true, decide_eq_true_eq]
      exact ⟨hm.1, ih'⟩
    · exact Memory.wfFrom_mono (by omega) ih'

theorem Memory.wfFrom_insert {lo : Nat} {m : Memory w} (hm : Memory.wfFrom lo m = true) {k : Nat} {x : BitVec w}
    (hk : lo ≤ k) (hx : x ≠ 0) (h : ∀ c ∈ m, c.1 ≠ k) : Memory.wfFrom lo (Memory.insert m k x) = true := by
  induction m generalizing lo with
  | nil => simpa [Memory.insert, Memory.wfFrom, hk] using hx
  | cons c m ih =>
    obtain ⟨a, v⟩ := c
    have ha : a ≠ k := h (a, v) (by simp)
    simp only [Memory.wfFrom, Bool.and_eq_true, decide_eq_true_eq] at hm
    unfold Memory.insert
    split
    · simp only [Memory.wfFrom, Bool.and_eq_true, decide_eq_true_eq]
      exact ⟨⟨hk, by simpa using hx⟩, ⟨by omega, hm.1.2⟩, hm.2⟩
    · simp only [Memory.wfFrom, Bool.and_eq_true, decide_eq_true_eq]
      exact ⟨hm.1, ih hm.2 (by omega) fun c hc => h c (by simp [hc])⟩

/-- A write keeps the canonical form. -/
theorem Memory.wf_write {m : Memory w} (hm : Memory.wf m = true) (k : Nat) (x : BitVec w) :
    Memory.wf (Memory.write m k x) = true := by
  unfold Memory.write
  split
  · exact Memory.wfFrom_erase hm k
  · next hx => exact Memory.wfFrom_insert (Memory.wfFrom_erase hm k) (Nat.zero_le _) hx (by simp [Memory.erase])

theorem Memory.below_insert {m : Memory w} {size k : Nat} {x : BitVec w} (hm : Memory.below size m = true)
    (hk : k < size) : Memory.below size (Memory.insert m k x) = true := by
  induction m with
  | nil => simpa [Memory.insert, Memory.below] using hk
  | cons c m ih =>
    simp only [Memory.below, List.all_cons, Bool.and_eq_true, decide_eq_true_eq] at hm ih
    unfold Memory.insert
    split
    · simp only [Memory.below, List.all_cons, Bool.and_eq_true, decide_eq_true_eq]
      exact ⟨hk, hm.1, hm.2⟩
    · simp only [Memory.below, List.all_cons, Bool.and_eq_true, decide_eq_true_eq]
      exact ⟨hm.1, ih hm.2⟩

/-- A write below a bound keeps every address below it. -/
theorem Memory.below_write {m : Memory w} {size k : Nat} (hm : Memory.below size m = true) (hk : k < size)
    (x : BitVec w) : Memory.below size (Memory.write m k x) = true := by
  have he : Memory.below size (Memory.erase m k) = true := by
    simp only [Memory.below, Memory.erase, List.all_eq_true, List.mem_filter] at hm ⊢
    exact fun c hc => hm c hc.1
  unfold Memory.write
  split
  · exact he
  · exact Memory.below_insert he hk

/-! ### Memories made from lists -/

theorem Memory.wfFrom_ofListFrom (a : Nat) (vs : List (BitVec w)) :
    Memory.wfFrom a (Memory.ofListFrom a vs) = true := by
  induction vs generalizing a with
  | nil => rfl
  | cons v vs ih =>
    unfold Memory.ofListFrom
    split
    · exact Memory.wfFrom_mono (by omega) (ih (a + 1))
    · next h =>
      simp only [Memory.wfFrom, Bool.and_eq_true, decide_eq_true_eq]
      exact ⟨⟨le_refl a, by simpa using h⟩, ih (a + 1)⟩

/-- A memory made from a list is canonical. -/
theorem Memory.wf_ofList (vs : List (BitVec w)) : Memory.wf (Memory.ofList vs) = true :=
  Memory.wfFrom_ofListFrom 0 vs

/-- A canonical memory reads as 0 below its lowest address. -/
theorem Memory.read_of_lt {lo : Nat} {m : Memory w} (hm : Memory.wfFrom lo m = true) {k : Nat} (hk : k < lo) :
    Memory.read m k = 0 := by
  induction m generalizing lo with
  | nil => rfl
  | cons c m ih =>
    simp only [Memory.wfFrom, Bool.and_eq_true, decide_eq_true_eq] at hm
    have hne : k ≠ c.1 := by omega
    simp only [Memory.read, hne, if_false]
    exact ih hm.2 (by omega)

theorem Memory.read_ofListFrom (a : Nat) (vs : List (BitVec w)) (k : Nat) :
    Memory.read (Memory.ofListFrom a vs) (a + k) = vs.getD k 0 := by
  induction vs generalizing a k with
  | nil => simp [Memory.ofListFrom, Memory.read]
  | cons v vs ih =>
    unfold Memory.ofListFrom
    cases k with
    | zero =>
      split
      · next h => simpa [h] using Memory.read_of_lt (Memory.wfFrom_ofListFrom (a + 1) vs) (by omega)
      · simp [Memory.read]
    | succ k =>
      have e : a + (k + 1) = a + 1 + k := by omega
      have hne : a + 1 + k ≠ a := by omega
      split
      · rw [e, ih]; simp
      · rw [e, Memory.read, if_neg hne, ih]; simp

/-- A memory made from a list holds the list's values from address 0 up. -/
theorem Memory.read_ofList (vs : List (BitVec w)) (k : Nat) : Memory.read (Memory.ofList vs) k = vs.getD k 0 := by
  simpa [Memory.ofList] using Memory.read_ofListFrom 0 vs k

/-- A memory made from a list lists only addresses below its length. -/
theorem Memory.below_ofList (vs : List (BitVec w)) : Memory.below vs.length (Memory.ofList vs) = true := by
  suffices h : ∀ a, Memory.below (a + vs.length) (Memory.ofListFrom a vs) = true by
    simpa [Memory.ofList] using h 0
  induction vs with
  | nil => intro a; rfl
  | cons v vs ih =>
    intro a
    have h := ih (a + 1)
    have e : a + 1 + vs.length = a + (vs.length + 1) := by omega
    unfold Memory.ofListFrom
    split
    · simpa [e] using h
    · simp only [e] at h
      simp only [Memory.below, List.all_cons, Bool.and_eq_true, decide_eq_true_eq, List.length_cons] at h ⊢
      exact ⟨by omega, h⟩

/-! ### Bytes written by a store -/

/-- What each address holds after `MemWrite` (20_memory.md R44). -/
theorem read_bytesWritten (m : Memory 8) (a : Nat) (v : Word) (k b : Nat) :
    Memory.read (bytesWritten m a v k) b =
      if a ≤ b ∧ b < a + k then v.extractLsb' (8 * (b - a)) 8 else Memory.read m b := by
  induction k with
  | zero =>
    have h : ¬(a ≤ b ∧ b < a + 0) := by omega
    rw [bytesWritten, if_neg h]
  | succ k ih =>
    rw [bytesWritten, Memory.read_write, ih]
    by_cases hb : b = a + k
    · subst hb; simp
    · rw [if_neg hb]
      by_cases h : a ≤ b ∧ b < a + k
      · rw [if_pos h, if_pos ⟨h.1, by omega⟩]
      · rw [if_neg h, if_neg (by omega)]

/-- `MemWrite` keeps the canonical form. -/
theorem wf_bytesWritten {m : Memory 8} (hm : Memory.wf m = true) (a : Nat) (v : Word) (k : Nat) :
    Memory.wf (bytesWritten m a v k) = true := by
  induction k with
  | zero => exact hm
  | succ k ih => exact Memory.wf_write ih _ _

/-- An in-bounds `MemWrite` keeps every address below the bound. -/
theorem below_bytesWritten {m : Memory 8} {size : Nat} (hm : Memory.below size m = true) (a : Nat) (v : Word) (k : Nat)
    (h : a + k ≤ size) : Memory.below size (bytesWritten m a v k) = true := by
  induction k with
  | zero => exact hm
  | succ k ih => exact Memory.below_write (ih (by omega)) (by omega) _

end Sys2Proof.Machine
end

