-- ==== Sys2Proof/Laws/State.lean ====
section
/-! SUPPORT. One lemma per field of State per update of Machine/Ops.lean, so that no later proof unfolds a record
update; then what each update leaves of the reads built on the fields. -/

namespace Sys2Proof.Machine

variable (s : State)

@[simp] theorem State.writeReg_pc (r : Reg) (v : Word) : (s.writeReg r v).pc = s.pc := by unfold State.writeReg; split <;> rfl
@[simp] theorem State.writeReg_dmem (r : Reg) (v : Word) : (s.writeReg r v).dmem = s.dmem := by unfold State.writeReg; split <;> rfl
@[simp] theorem State.writeReg_n (r : Reg) (v : Word) : (s.writeReg r v).n = s.n := by unfold State.writeReg; split <;> rfl
@[simp] theorem State.writeReg_entry (r : Reg) (v : Word) : (s.writeReg r v).entry = s.entry := by unfold State.writeReg; split <;> rfl
@[simp] theorem State.writeReg_memsize (r : Reg) (v : Word) : (s.writeReg r v).memsize = s.memsize := by unfold State.writeReg; split <;> rfl
@[simp] theorem State.writeReg_imem (r : Reg) (v : Word) : (s.writeReg r v).imem = s.imem := by unfold State.writeReg; split <;> rfl
@[simp] theorem State.writeReg_trace (r : Reg) (v : Word) : (s.writeReg r v).trace = s.trace := by unfold State.writeReg; split <;> rfl
@[simp] theorem State.writeReg_status (r : Reg) (v : Word) : (s.writeReg r v).status = s.status := by unfold State.writeReg; split <;> rfl
@[simp] theorem State.writeReg_out (r : Reg) (v : Word) : (s.writeReg r v).out = s.out := by unfold State.writeReg; split <;> rfl
@[simp] theorem State.writeReg_tr (r : Reg) (v : Word) : (s.writeReg r v).tr = s.tr := by unfold State.writeReg; split <;> rfl

@[simp] theorem State.memWrite_regs (a k : Nat) (v : Word) : (s.memWrite a k v).regs = s.regs := rfl
@[simp] theorem State.memWrite_pc (a k : Nat) (v : Word) : (s.memWrite a k v).pc = s.pc := rfl
@[simp] theorem State.memWrite_dmem (a k : Nat) (v : Word) : (s.memWrite a k v).dmem = bytesWritten s.dmem a v k := rfl
@[simp] theorem State.memWrite_n (a k : Nat) (v : Word) : (s.memWrite a k v).n = s.n := rfl
@[simp] theorem State.memWrite_entry (a k : Nat) (v : Word) : (s.memWrite a k v).entry = s.entry := rfl
@[simp] theorem State.memWrite_memsize (a k : Nat) (v : Word) : (s.memWrite a k v).memsize = s.memsize := rfl
@[simp] theorem State.memWrite_imem (a k : Nat) (v : Word) : (s.memWrite a k v).imem = s.imem := rfl
@[simp] theorem State.memWrite_trace (a k : Nat) (v : Word) : (s.memWrite a k v).trace = s.trace := rfl
@[simp] theorem State.memWrite_status (a k : Nat) (v : Word) : (s.memWrite a k v).status = s.status := rfl
@[simp] theorem State.memWrite_out (a k : Nat) (v : Word) : (s.memWrite a k v).out = s.out := rfl
@[simp] theorem State.memWrite_tr (a k : Nat) (v : Word) : (s.memWrite a k v).tr = s.tr := rfl

@[simp] theorem State.fallThrough_regs : (s.fallThrough).regs = s.regs := rfl
@[simp] theorem State.fallThrough_pc : (s.fallThrough).pc = s.pc + 1 := rfl
@[simp] theorem State.fallThrough_dmem : (s.fallThrough).dmem = s.dmem := rfl
@[simp] theorem State.fallThrough_n : (s.fallThrough).n = s.n := rfl
@[simp] theorem State.fallThrough_entry : (s.fallThrough).entry = s.entry := rfl
@[simp] theorem State.fallThrough_memsize : (s.fallThrough).memsize = s.memsize := rfl
@[simp] theorem State.fallThrough_imem : (s.fallThrough).imem = s.imem := rfl
@[simp] theorem State.fallThrough_trace : (s.fallThrough).trace = s.trace := rfl
@[simp] theorem State.fallThrough_status : (s.fallThrough).status = s.status := rfl
@[simp] theorem State.fallThrough_out : (s.fallThrough).out = s.out := rfl
@[simp] theorem State.fallThrough_tr : (s.fallThrough).tr = s.tr := rfl

@[simp] theorem State.redirect_regs (t : Word) : (s.redirect t).regs = s.regs := rfl
@[simp] theorem State.redirect_pc (t : Word) : (s.redirect t).pc = t := rfl
@[simp] theorem State.redirect_dmem (t : Word) : (s.redirect t).dmem = s.dmem := rfl
@[simp] theorem State.redirect_n (t : Word) : (s.redirect t).n = s.n := rfl
@[simp] theorem State.redirect_entry (t : Word) : (s.redirect t).entry = s.entry := rfl
@[simp] theorem State.redirect_memsize (t : Word) : (s.redirect t).memsize = s.memsize := rfl
@[simp] theorem State.redirect_imem (t : Word) : (s.redirect t).imem = s.imem := rfl
@[simp] theorem State.redirect_trace (t : Word) : (s.redirect t).trace = s.trace := rfl
@[simp] theorem State.redirect_status (t : Word) : (s.redirect t).status = s.status := rfl
@[simp] theorem State.redirect_out (t : Word) : (s.redirect t).out = s.out := rfl
@[simp] theorem State.redirect_tr (t : Word) : (s.redirect t).tr = s.tr := rfl

@[simp] theorem State.halt_regs (reason : HaltReason) : (s.halt reason).regs = s.regs := rfl
@[simp] theorem State.halt_pc (reason : HaltReason) : (s.halt reason).pc = s.pc := rfl
@[simp] theorem State.halt_dmem (reason : HaltReason) : (s.halt reason).dmem = s.dmem := rfl
@[simp] theorem State.halt_n (reason : HaltReason) : (s.halt reason).n = s.n := rfl
@[simp] theorem State.halt_entry (reason : HaltReason) : (s.halt reason).entry = s.entry := rfl
@[simp] theorem State.halt_memsize (reason : HaltReason) : (s.halt reason).memsize = s.memsize := rfl
@[simp] theorem State.halt_imem (reason : HaltReason) : (s.halt reason).imem = s.imem := rfl
@[simp] theorem State.halt_trace (reason : HaltReason) : (s.halt reason).trace = s.trace := rfl
@[simp] theorem State.halt_status (reason : HaltReason) : (s.halt reason).status = .halted reason := rfl
@[simp] theorem State.halt_out (reason : HaltReason) : (s.halt reason).out = s.out := rfl
@[simp] theorem State.halt_tr (reason : HaltReason) : (s.halt reason).tr = s.tr := rfl

@[simp] theorem State.emit_regs (bytes : List Byte) : (s.emit bytes).regs = s.regs := rfl
@[simp] theorem State.emit_pc (bytes : List Byte) : (s.emit bytes).pc = s.pc := rfl
@[simp] theorem State.emit_dmem (bytes : List Byte) : (s.emit bytes).dmem = s.dmem := rfl
@[simp] theorem State.emit_n (bytes : List Byte) : (s.emit bytes).n = s.n := rfl
@[simp] theorem State.emit_entry (bytes : List Byte) : (s.emit bytes).entry = s.entry := rfl
@[simp] theorem State.emit_memsize (bytes : List Byte) : (s.emit bytes).memsize = s.memsize := rfl
@[simp] theorem State.emit_imem (bytes : List Byte) : (s.emit bytes).imem = s.imem := rfl
@[simp] theorem State.emit_trace (bytes : List Byte) : (s.emit bytes).trace = s.trace := rfl
@[simp] theorem State.emit_status (bytes : List Byte) : (s.emit bytes).status = s.status := rfl
@[simp] theorem State.emit_out (bytes : List Byte) : (s.emit bytes).out = s.out ++ bytes := rfl
@[simp] theorem State.emit_tr (bytes : List Byte) : (s.emit bytes).tr = s.tr := rfl

@[simp] theorem State.record_regs (w : Word) : (s.record w).regs = s.regs := by unfold State.record; split <;> rfl
@[simp] theorem State.record_pc (w : Word) : (s.record w).pc = s.pc := by unfold State.record; split <;> rfl
@[simp] theorem State.record_dmem (w : Word) : (s.record w).dmem = s.dmem := by unfold State.record; split <;> rfl
@[simp] theorem State.record_n (w : Word) : (s.record w).n = s.n := by unfold State.record; split <;> rfl
@[simp] theorem State.record_entry (w : Word) : (s.record w).entry = s.entry := by unfold State.record; split <;> rfl
@[simp] theorem State.record_memsize (w : Word) : (s.record w).memsize = s.memsize := by unfold State.record; split <;> rfl
@[simp] theorem State.record_imem (w : Word) : (s.record w).imem = s.imem := by unfold State.record; split <;> rfl
@[simp] theorem State.record_trace (w : Word) : (s.record w).trace = s.trace := by unfold State.record; split <;> rfl
@[simp] theorem State.record_status (w : Word) : (s.record w).status = s.status := by unfold State.record; split <;> rfl
@[simp] theorem State.record_out (w : Word) : (s.record w).out = s.out := by unfold State.record; split <;> rfl
@[simp] theorem State.record_tr (w : Word) : (s.record w).tr = if s.trace then s.tr ++ [⟨s.pc, w, s.n⟩] else s.tr := by unfold State.record; split <;> rfl

/-! ### Registers -/

/-- Register 0 reads as 0 in every state (10_state.md R21). -/
@[simp] theorem State.readReg_zero : s.readReg 0#5 = 0#32 := if_pos rfl

/-- Equal slots read alike. -/
theorem State.readReg_congr {s t : State} (h : t.regs = s.regs) (r : Reg) : t.readReg r = s.readReg r := by
  simp [State.readReg, h]

/-- A read after a write: the written register, unless it is register 0, holds the value; the others are as before. -/
theorem State.readReg_writeReg (d r : Reg) (v : Word) :
    (s.writeReg d v).readReg r = if r = d ∧ d ≠ 0 then v else s.readReg r := by
  by_cases hd : d = 0
  · rw [State.writeReg, if_pos hd, if_neg fun h => h.2 hd]
  · rw [State.writeReg, if_neg hd]
    unfold State.readReg
    by_cases hr : r = d
    · subst hr
      rw [if_neg hd, if_pos ⟨rfl, hd⟩, Vector.getElem_set_self]
    · have hne : d.toNat ≠ r.toNat := fun h => hr (BitVec.eq_of_toNat_eq h.symm)
      rw [Vector.getElem_set_ne _ _ hne, if_neg (show ¬(r = d ∧ d ≠ 0) from fun h => hr h.1)]

/-- A write to register 0 is discarded (R21). -/
@[simp] theorem State.writeReg_zero (v : Word) : s.writeReg 0#5 v = s := if_pos rfl

/-- No write reaches slot 0. -/
@[simp] theorem State.writeReg_slot_zero (d : Reg) (v : Word) : (s.writeReg d v).regs[0] = s.regs[0] := by
  unfold State.writeReg
  split
  · rfl
  · next h =>
    have hne : d.toNat ≠ 0 := fun e => h (BitVec.eq_of_toNat_eq e)
    exact Vector.getElem_set_ne (reg_lt d) (by decide) hne

@[simp] theorem State.memWrite_readReg (a k : Nat) (v : Word) (r : Reg) : (s.memWrite a k v).readReg r = s.readReg r :=
  State.readReg_congr (by simp) r
@[simp] theorem State.fallThrough_readReg (r : Reg) : (s.fallThrough).readReg r = s.readReg r :=
  State.readReg_congr (by simp) r
@[simp] theorem State.redirect_readReg (t : Word) (r : Reg) : (s.redirect t).readReg r = s.readReg r :=
  State.readReg_congr (by simp) r
@[simp] theorem State.halt_readReg (reason : HaltReason) (r : Reg) : (s.halt reason).readReg r = s.readReg r :=
  State.readReg_congr (by simp) r
@[simp] theorem State.emit_readReg (bytes : List Byte) (r : Reg) : (s.emit bytes).readReg r = s.readReg r :=
  State.readReg_congr (by simp) r
@[simp] theorem State.record_readReg (w : Word) (r : Reg) : (s.record w).readReg r = s.readReg r :=
  State.readReg_congr (by simp) r

/-! ### Bytes, operands and fetch -/

/-- Equal data memories read alike. -/
theorem State.readByte_congr {s t : State} (h : t.dmem = s.dmem) (a : Nat) : t.readByte a = s.readByte a := by
  simp [State.readByte, h]

/-- Equal data memories give equal multi-byte reads. -/
theorem State.memRead_congr {s t : State} (h : t.dmem = s.dmem) (a k : Nat) : t.memRead a k = s.memRead a k := by
  induction k with
  | zero => rfl
  | succ k ih => simp [State.memRead, ih, State.readByte_congr h]

@[simp] theorem State.writeReg_readByte (r : Reg) (v : Word) (a : Nat) : (s.writeReg r v).readByte a = s.readByte a :=
  State.readByte_congr (by simp) a
@[simp] theorem State.fallThrough_readByte (a : Nat) : (s.fallThrough).readByte a = s.readByte a :=
  State.readByte_congr (by simp) a
@[simp] theorem State.redirect_readByte (t : Word) (a : Nat) : (s.redirect t).readByte a = s.readByte a :=
  State.readByte_congr (by simp) a
@[simp] theorem State.halt_readByte (reason : HaltReason) (a : Nat) : (s.halt reason).readByte a = s.readByte a :=
  State.readByte_congr (by simp) a
@[simp] theorem State.emit_readByte (bytes : List Byte) (a : Nat) : (s.emit bytes).readByte a = s.readByte a :=
  State.readByte_congr (by simp) a
@[simp] theorem State.record_readByte (w : Word) (a : Nat) : (s.record w).readByte a = s.readByte a :=
  State.readByte_congr (by simp) a

@[simp] theorem State.memWrite_effectiveAddress (a k : Nat) (v : Word) (rs : Reg) (imm : Imm) :
    (s.memWrite a k v).effectiveAddress rs imm = s.effectiveAddress rs imm := by simp [State.effectiveAddress]
@[simp] theorem State.fallThrough_effectiveAddress (rs : Reg) (imm : Imm) :
    (s.fallThrough).effectiveAddress rs imm = s.effectiveAddress rs imm := by simp [State.effectiveAddress]
@[simp] theorem State.redirect_effectiveAddress (t : Word) (rs : Reg) (imm : Imm) :
    (s.redirect t).effectiveAddress rs imm = s.effectiveAddress rs imm := by simp [State.effectiveAddress]
@[simp] theorem State.halt_effectiveAddress (reason : HaltReason) (rs : Reg) (imm : Imm) :
    (s.halt reason).effectiveAddress rs imm = s.effectiveAddress rs imm := by simp [State.effectiveAddress]
@[simp] theorem State.emit_effectiveAddress (bytes : List Byte) (rs : Reg) (imm : Imm) :
    (s.emit bytes).effectiveAddress rs imm = s.effectiveAddress rs imm := by simp [State.effectiveAddress]
@[simp] theorem State.record_effectiveAddress (w : Word) (rs : Reg) (imm : Imm) :
    (s.record w).effectiveAddress rs imm = s.effectiveAddress rs imm := by simp [State.effectiveAddress]

@[simp] theorem State.writeReg_hasNext (r : Reg) (v : Word) : (s.writeReg r v).hasNext = s.hasNext := by unfold State.writeReg; split <;> rfl
@[simp] theorem State.writeReg_fetched (r : Reg) (v : Word) : (s.writeReg r v).fetched = s.fetched := by simp [State.fetched]
@[simp] theorem State.memWrite_hasNext (a k : Nat) (v : Word) : (s.memWrite a k v).hasNext = s.hasNext := rfl
@[simp] theorem State.memWrite_fetched (a k : Nat) (v : Word) : (s.memWrite a k v).fetched = s.fetched := by simp [State.fetched]
@[simp] theorem State.halt_hasNext (reason : HaltReason) : (s.halt reason).hasNext = s.hasNext := rfl
@[simp] theorem State.halt_fetched (reason : HaltReason) : (s.halt reason).fetched = s.fetched := by simp [State.fetched]
@[simp] theorem State.emit_hasNext (bytes : List Byte) : (s.emit bytes).hasNext = s.hasNext := rfl
@[simp] theorem State.emit_fetched (bytes : List Byte) : (s.emit bytes).fetched = s.fetched := by simp [State.fetched]
@[simp] theorem State.record_hasNext (w : Word) : (s.record w).hasNext = s.hasNext := by unfold State.record; split <;> rfl
@[simp] theorem State.record_fetched (w : Word) : (s.record w).fetched = s.fetched := by simp [State.fetched]

end Sys2Proof.Machine
end

