-- ==== Sys2Proof/Laws/Ops.lean ====
section
/-! SUPPORT. One lemma per shared operation, saying once everything it can do, and the inversion lemmas of `exec` and
`step` over them. Later proofs cite these instead of unfolding. -/

namespace Sys2Proof.Machine

variable {s t : State}

/-! ### The shared operations -/

/-- A register write with fall-through changes that register and the program counter and nothing else. -/
theorem finish_spec (s : State) (d : Reg) (v : Word) :
    ∃ t, s.finish d v = .next t ∧ WritesOnlyReg s t d v ∧ t.pc = s.pc + 1 :=
  ⟨_, rfl, ⟨fun r => by simpa using s.readReg_writeReg d r v, fun a => by simp, ⟨by simp, by simp⟩,
    ⟨by simp, by simp, by simp, by simp, by simp⟩, by simp⟩, by simp⟩

/-- The bounds check as an inequality (20_memory.md R45). -/
theorem inBounds_iff (s : State) (ea : Word) (width : Width) :
    s.inBounds ea width = true ↔ ea.toNat + width.bytes ≤ s.memsize.toNat := by
  simp [State.inBounds]

/-- A load in bounds. -/
theorem loadAt_of_inBounds {width : Width} {rs rt : Reg} {imm : Imm}
    (h : s.inBounds (s.effectiveAddress rs imm) width = true) :
    s.loadAt width rs rt imm =
      s.finish rt (width.extend (s.memRead (s.effectiveAddress rs imm).toNat width.bytes)) := by
  simp [State.loadAt, State.finish, h]

/-- A load out of bounds. -/
theorem loadAt_of_not_inBounds {width : Width} {rs rt : Reg} {imm : Imm}
    (h : s.inBounds (s.effectiveAddress rs imm) width = false) :
    s.loadAt width rs rt imm = .next (s.halt (.outOfBounds (s.effectiveAddress rs imm) width .load)) := by
  simp [State.loadAt, h]

/-- A store in bounds writes exactly its bytes. -/
theorem storeAt_of_inBounds {width : Width} {rs rt : Reg} {imm : Imm}
    (h : s.inBounds (s.effectiveAddress rs imm) width = true) :
    ∃ t, s.storeAt width rs rt imm = .next t ∧
      StoresOnlyBytes s t (s.effectiveAddress rs imm).toNat width.bytes (s.readReg rt) ∧ t.pc = s.pc + 1 :=
  ⟨_, by simp only [State.storeAt, h, if_true]; rfl,
    ⟨fun b => by simpa [State.readByte] using read_bytesWritten _ _ _ _ b, fun r => by simp, ⟨by simp, by simp⟩,
      ⟨by simp, by simp, by simp, by simp, by simp⟩, by simp⟩, by simp⟩

/-- A store out of bounds. -/
theorem storeAt_of_not_inBounds {width : Width} {rs rt : Reg} {imm : Imm}
    (h : s.inBounds (s.effectiveAddress rs imm) width = false) :
    s.storeAt width rs rt imm = .next (s.halt (.outOfBounds (s.effectiveAddress rs imm) width .store)) := by
  simp [State.storeAt, h]

/-- The service table as a chain of comparisons (44_register_type.md R141). -/
theorem lookup_service (c : Word) : serviceTable.lookup c =
    if c = 1 then some .printInteger else if c = 10 then some .exit else if c = 11 then some .printCharacter
    else none := by
  simp only [serviceTable, List.lookup]
  by_cases h1 : c = 1
  · subst h1; rfl
  · by_cases h2 : c = 10
    · subst h2; rfl
    · by_cases h3 : c = 11
      · subst h3; rfl
      · simp only [beq_eq_false_iff_ne.mpr h1, beq_eq_false_iff_ne.mpr h2, beq_eq_false_iff_ne.mpr h3, if_neg h1,
          if_neg h2, if_neg h3]

/-! ### Inversion -/

/-- Everything an executed instruction can do. -/
inductive Effect (s : State) (i : Instr) : State → Prop where
  /-- It writes its destination and falls through. -/
  | wrote (d : Reg) (v : Word) (hd : i.dest = some d) : Effect s i (s.writeReg d v).fallThrough
  /-- A branch or JR changes the program counter alone. -/
  | jumped (target : Word) (hi : i.mayRedirect = true) : Effect s i (s.redirect target)
  /-- It stores in bounds and falls through. -/
  | stored (width : Width) (rs : Reg) (imm : Imm) (v : Word) (ha : dataAccess i = some (width, .store, rs, imm))
      (hb : (s.effectiveAddress rs imm).toNat + width.bytes ≤ s.memsize.toNat) :
      Effect s i (s.memWrite (s.effectiveAddress rs imm).toNat width.bytes v).fallThrough
  /-- It prints and falls through. -/
  | printed (bytes : List Byte) (hi : i = .syscall) (hc : s.readReg 2 = 1 ∨ s.readReg 2 = 11) :
      Effect s i (s.emit bytes).fallThrough
  /-- It ends the run successfully. -/
  | returned (rs : Reg) (hi : i = .jr rs) (ht : s.n.toNat ≤ (s.readReg rs).toNat) :
      Effect s i (s.halt (.jrPastEnd (s.readReg rs)))
  /-- It exits. -/
  | exited (hi : i = .syscall) (hc : s.readReg 2 = 10) : Effect s i (s.halt .exitSyscall)
  /-- It names no service. -/
  | badService (hi : i = .syscall) (hc : s.readReg 2 ≠ 1 ∧ s.readReg 2 ≠ 10 ∧ s.readReg 2 ≠ 11) :
      Effect s i (s.halt (.badSyscall (s.readReg 2)))
  /-- It accesses data out of bounds. -/
  | leftMemory (width : Width) (dir : Direction) (rs : Reg) (imm : Imm)
      (ha : dataAccess i = some (width, dir, rs, imm))
      (hb : s.memsize.toNat < (s.effectiveAddress rs imm).toNat + width.bytes) :
      Effect s i (s.halt (.outOfBounds (s.effectiveAddress rs imm) width dir))

theorem loadAt_effect {i : Instr} {width : Width} {rs rt : Reg} {imm : Imm} (hd : i.dest = some rt)
    (ha : dataAccess i = some (width, .load, rs, imm)) :
    ∃ t, s.loadAt width rs rt imm = .next t ∧ Effect s i t := by
  cases h : s.inBounds (s.effectiveAddress rs imm) width with
  | true => exact ⟨_, loadAt_of_inBounds h, .wrote _ _ hd⟩
  | false =>
    have hb : ¬ _ := fun e => by rw [(inBounds_iff s _ _).mpr e] at h; cases h
    exact ⟨_, loadAt_of_not_inBounds h, .leftMemory _ _ _ _ ha (by omega)⟩

theorem storeAt_effect {i : Instr} {width : Width} {rs rt : Reg} {imm : Imm}
    (ha : dataAccess i = some (width, .store, rs, imm)) :
    ∃ t, s.storeAt width rs rt imm = .next t ∧ Effect s i t := by
  cases h : s.inBounds (s.effectiveAddress rs imm) width with
  | true =>
    exact ⟨_, by simp only [State.storeAt, h, if_true]; rfl, .stored _ _ _ _ ha ((inBounds_iff s _ _).mp h)⟩
  | false =>
    have hb : ¬ _ := fun e => by rw [(inBounds_iff s _ _).mpr e] at h; cases h
    exact ⟨_, storeAt_of_not_inBounds h, .leftMemory _ _ _ _ ha (by omega)⟩

theorem branchIf_effect {i : Instr} {taken : Bool} {imm : Imm} (hi : i.mayRedirect = true) :
    ∃ t, s.branchIf taken imm = .next t ∧ Effect s i t := by
  cases taken with
  | true => exact ⟨_, rfl, .jumped _ hi⟩
  | false => exact ⟨_, rfl, .jumped (s.pc + 1) hi⟩

theorem execJr_effect (rs : Reg) : ∃ t, execJr rs s = .next t ∧ Effect s (.jr rs) t := by
  by_cases h : (s.readReg rs).toNat < s.n.toNat
  · exact ⟨_, rfl, by simpa only [h, if_true] using .jumped _ rfl⟩
  · exact ⟨_, rfl, by simpa only [h, if_false] using .returned rs rfl (by omega)⟩

theorem execSyscall_effect : ∃ t, execSyscall s = .next t ∧ Effect s .syscall t := by
  simp only [execSyscall, lookup_service]
  by_cases h1 : s.readReg 2 = 1
  · rw [if_pos h1]; exact ⟨_, rfl, .printed _ rfl (.inl h1)⟩
  · by_cases h2 : s.readReg 2 = 10
    · rw [if_neg h1, if_pos h2]; exact ⟨_, rfl, .exited rfl h2⟩
    · by_cases h3 : s.readReg 2 = 11
      · rw [if_neg h1, if_neg h2, if_pos h3]; exact ⟨_, rfl, .printed _ rfl (.inr h3)⟩
      · rw [if_neg h1, if_neg h2, if_neg h3]; exact ⟨_, rfl, .badService rfl ⟨h1, h2, h3⟩⟩

/-- Executing an instruction always answers a next state, and that state is one of its effects. -/
theorem exec_effect (i : Instr) (s : State) : ∃ t, exec i s = .next t ∧ Effect s i t := by
  cases i with
  | addi rs rt imm => exact ⟨_, rfl, .wrote _ _ rfl⟩
  | addiu rs rt imm => exact ⟨_, rfl, .wrote _ _ rfl⟩
  | ori rs rt imm => exact ⟨_, rfl, .wrote _ _ rfl⟩
  | lui rt imm => exact ⟨_, rfl, .wrote _ _ rfl⟩
  | beq rs rt imm => exact branchIf_effect rfl
  | bne rs rt imm => exact branchIf_effect rfl
  | lb rs rt imm => exact loadAt_effect rfl rfl
  | lh rs rt imm => exact loadAt_effect rfl rfl
  | lw rs rt imm => exact loadAt_effect rfl rfl
  | sb rs rt imm => exact storeAt_effect rfl
  | sh rs rt imm => exact storeAt_effect rfl
  | sw rs rt imm => exact storeAt_effect rfl
  | add rs rt rd => exact ⟨_, rfl, .wrote _ _ rfl⟩
  | syscall => exact execSyscall_effect
  | mul rs rt rd => exact ⟨_, rfl, .wrote _ _ rfl⟩
  | slt rs rt rd => exact ⟨_, rfl, .wrote _ _ rfl⟩
  | jr rs => exact execJr_effect rs

/-- The inversion of `exec`. -/
theorem exec_cases {i : Instr} (h : exec i s = .next t) : Effect s i t := by
  obtain ⟨t', h', e⟩ := exec_effect i s
  cases h.symm.trans h'
  exact e

/-! ### The stages of a step -/

/-- A running core whose fetch stage ends the run takes that end. -/
theorem step_of_ended (hs : s.status = .running) (h : s.fetchStage = .ended t) : step s = .next t := by
  unfold step
  rw [hs]
  simp only [h]

/-- A running core whose fetch stage is ready executes its instruction. -/
theorem step_of_ready {i : Instr} (hs : s.status = .running) (h : s.fetchStage = .ready i t) : step s = exec i t := by
  unfold step
  rw [hs]
  simp only [h]

theorem fetchStage_of_past (hn : s.hasNext = false) : s.fetchStage = .ended (s.halt (.pastEnd s.pc)) := by
  simp [State.fetchStage, hn]

theorem fetchStage_of_illegal {e : DecodeError} (hn : s.hasNext = true) (hd : decode s.fetched = .error e) :
    s.fetchStage = .ended ((s.record s.fetched).halt (.badInstruction s.fetched)) := by
  simp [State.fetchStage, hn, hd]

theorem fetchStage_of_legal {i : Instr} (hn : s.hasNext = true) (hd : decode s.fetched = .ok i) :
    s.fetchStage = .ready i (s.record s.fetched) := by
  simp [State.fetchStage, hn, hd]

/-- Everything a step can do. -/
inductive StepEffect (s : State) : State → Prop where
  /-- The step began past the end. -/
  | pastEnd (hn : s.hasNext = false) : StepEffect s (s.halt (.pastEnd s.pc))
  /-- The word fetched is illegal. -/
  | illegal (e : DecodeError) (hn : s.hasNext = true) (hd : decode s.fetched = .error e) :
      StepEffect s ((s.record s.fetched).halt (.badInstruction s.fetched))
  /-- The word fetched was executed, after its trace record. -/
  | executed (i : Instr) (t : State) (hn : s.hasNext = true) (hd : decode s.fetched = .ok i)
      (he : Effect (s.record s.fetched) i t) : StepEffect s t

/-- A running core's step always answers a next state, and that state is one of the step's effects. -/
theorem step_effect (hs : s.status = .running) : ∃ t, step s = .next t ∧ StepEffect s t := by
  cases hn : s.hasNext with
  | false => exact ⟨_, step_of_ended hs (fetchStage_of_past hn), .pastEnd hn⟩
  | true =>
    cases hd : decode s.fetched with
    | error e => exact ⟨_, step_of_ended hs (fetchStage_of_illegal hn hd), .illegal e hn hd⟩
    | ok i =>
      obtain ⟨t, ht, he⟩ := exec_effect i (s.record s.fetched)
      exact ⟨t, (step_of_ready hs (fetchStage_of_legal hn hd)).trans ht, .executed i t hn hd he⟩

/-- The inversion of `step`. -/
theorem step_cases (h : step s = .next t) : s.status = .running ∧ StepEffect s t := by
  cases hs : s.status with
  | halted r => simp [step, hs] at h
  | running =>
    obtain ⟨t', h', e⟩ := step_effect hs
    cases h.symm.trans h'
    exact ⟨rfl, e⟩

end Sys2Proof.Machine
end

