-- ==== Sys2Proof/Laws/PerInstr.lean ====
section
/-! SUPPORT. The family TableRow: every encoding carries its row's match bits of spec/opcode_table.json. -/

namespace Sys2Proof

/-- The (match, mask) of the instruction's row in spec/opcode_table.json, copied from the table. -/
def Instr.tableRow : Instr → Word × Word
  | .addi .. => (0x20000000, 0xFC000000)
  | .addiu .. => (0x24000000, 0xFC000000)
  | .ori .. => (0x34000000, 0xFC000000)
  | .lui .. => (0x3C000000, 0xFC000000)
  | .beq .. => (0x10000000, 0xFC000000)
  | .bne .. => (0x14000000, 0xFC000000)
  | .lb .. => (0x80000000, 0xFC000000)
  | .lh .. => (0x84000000, 0xFC000000)
  | .lw .. => (0x8C000000, 0xFC000000)
  | .sb .. => (0xA0000000, 0xFC000000)
  | .sh .. => (0xA4000000, 0xFC000000)
  | .sw .. => (0xAC000000, 0xFC000000)
  | .add .. => (0x00000020, 0xFC00003F)
  | .syscall => (0x0000000C, 0xFC00003F)
  | .mul .. => (0x00000002, 0xFC00003F)
  | .slt .. => (0x0000002A, 0xFC00003F)
  | .jr .. => (0x00000008, 0xFC00003F)

end Sys2Proof

namespace Sys2Proof.Laws.TableRow

/-- The encoding shows the row's match bits under the row's mask. -/
def Statement (i : Instr) : Prop := encode i &&& i.tableRow.2 = i.tableRow.1

theorem addi (rs rt : Reg) (imm : Imm) : Statement (.addi rs rt imm) := (packI_masked ..).trans rfl
theorem addiu (rs rt : Reg) (imm : Imm) : Statement (.addiu rs rt imm) := (packI_masked ..).trans rfl
theorem ori (rs rt : Reg) (imm : Imm) : Statement (.ori rs rt imm) := (packI_masked ..).trans rfl
theorem lui (rt : Reg) (imm : Imm) : Statement (.lui rt imm) := (packI_masked ..).trans rfl
theorem beq (rs rt : Reg) (imm : Imm) : Statement (.beq rs rt imm) := (packI_masked ..).trans rfl
theorem bne (rs rt : Reg) (imm : Imm) : Statement (.bne rs rt imm) := (packI_masked ..).trans rfl
theorem lb (rs rt : Reg) (imm : Imm) : Statement (.lb rs rt imm) := (packI_masked ..).trans rfl
theorem lh (rs rt : Reg) (imm : Imm) : Statement (.lh rs rt imm) := (packI_masked ..).trans rfl
theorem lw (rs rt : Reg) (imm : Imm) : Statement (.lw rs rt imm) := (packI_masked ..).trans rfl
theorem sb (rs rt : Reg) (imm : Imm) : Statement (.sb rs rt imm) := (packI_masked ..).trans rfl
theorem sh (rs rt : Reg) (imm : Imm) : Statement (.sh rs rt imm) := (packI_masked ..).trans rfl
theorem sw (rs rt : Reg) (imm : Imm) : Statement (.sw rs rt imm) := (packI_masked ..).trans rfl
theorem add (rs rt rd : Reg) : Statement (.add rs rt rd) := (packR_masked ..).trans rfl
theorem syscall : Statement .syscall := by unfold Statement; decide
theorem mul (rs rt rd : Reg) : Statement (.mul rs rt rd) := (packR_masked ..).trans rfl
theorem slt (rs rt rd : Reg) : Statement (.slt rs rt rd) := (packR_masked ..).trans rfl
theorem jr (rs : Reg) : Statement (.jr rs) := (packR_masked ..).trans rfl

end Sys2Proof.Laws.TableRow
end

