-- ==== Sys2Proof/Tests/Slice0.lean ====
section
/-! SUPPORT. The model's own tests. Expected results are the spec's (95_test_vectors.md unless another place is named).
Then one witness per statement with hypotheses, and per clause where a statement has several. -/

namespace Sys2Proof.Tests

open Sys2Proof.Machine

/-! ### Small states -/

/-- The state after reset from these words and data bytes. -/
def booted (words : List Word) (data : List Byte) (trace : Bool := false) : State :=
  State.boot ⟨BitVec.ofNat 32 words.length, 0, BitVec.ofNat 16 data.length, words, words.map fun _ => 0, data⟩ trace

/-- A state with these registers set. -/
def withRegs (s : State) (rs : List (Reg × Word)) : State := rs.foldl (fun s p => s.writeReg p.1 p.2) s

/-- One step of a core whose next word is `w`. -/
def stepWord (w : Nat) (rs : List (Reg × Word) := []) (data : List Byte := []) (pc : Word := 0) : Result :=
  step (({ withRegs (booted [] data) rs with pc := pc }).withFetchWord 32 w)

/-- A view of the next state, if there is one. -/
def view {α : Type} (f : State → α) : Result → Option α
  | .next t => some (f t)
  | .fault _ => none
  | .refused _ => none

/-- The bytes of data memory. -/
def dataBytes (s : State) : List Byte := (List.range s.memsize.toNat).map s.readByte

/-- The data of 95_test_vectors.md section 2.3. -/
def data8 : List Byte := [0x11, 0x22, 0x33, 0x44, 0x80, 0xFF, 0x00, 0x00]

/-! ### Decoding: each constructor, its word written out by fields (30_encoding.md R61, R66, R67) -/

theorem test_decode_addi : decode 0b00100000000001000000000000000101 = .ok (.addi 0 4 5) := by decide
theorem test_decode_addiu : decode 0b00100100101001011111111111111111 = .ok (.addiu 5 5 0xFFFF) := by decide
theorem test_decode_ori : decode 0b00110100011000111011111011101111 = .ok (.ori 3 3 0xBEEF) := by decide
theorem test_decode_lui : decode 0b00111100001001111000000000000000 = .ok (.lui 7 0x8000) := by decide
theorem test_decode_beq : decode 0b00010000001000101111111111111101 = .ok (.beq 1 2 0xFFFD) := by decide
theorem test_decode_bne : decode 0b00010101000000001111111111111110 = .ok (.bne 8 0 0xFFFE) := by decide
theorem test_decode_lb : decode 0b10000000010000011111111111111100 = .ok (.lb 2 1 0xFFFC) := by decide
theorem test_decode_lh : decode 0b10000100000010010000000000000100 = .ok (.lh 0 9 4) := by decide
theorem test_decode_lw : decode 0b10001100010000010000000000000100 = .ok (.lw 2 1 4) := by decide
theorem test_decode_sb : decode 0b10100000000010000000000000000001 = .ok (.sb 0 8 1) := by decide
theorem test_decode_sh : decode 0b10100100000010110000000000000010 = .ok (.sh 0 11 2) := by decide
theorem test_decode_sw : decode 0b10101100000010110000000000000100 = .ok (.sw 0 11 4) := by decide
theorem test_decode_add : decode 0b00000000001000100001111111100000 = .ok (.add 1 2 3) := by decide
theorem test_decode_syscall : decode 0b00000011111111111111111111001100 = .ok .syscall := by decide
theorem test_decode_mul : decode 0b00000000101001100001100000000010 = .ok (.mul 5 6 3) := by decide
theorem test_decode_slt : decode 0b00000000101001100011100000101010 = .ok (.slt 5 6 7) := by decide
theorem test_decode_jr : decode 0b00000011111000000000000000001000 = .ok (.jr 31) := by decide

/-- The words of 95_test_vectors.md section 2.5 are illegal. -/
theorem test_decode_illegal :
    ([0x00000000, 0x00000021, 0x00000001, 0x08000000, 0x90000000, 0xFC000000] : List Word).all
      (fun w => (decode w).toOption.isNone) = true := by decide

/-- The encoder gives the words of programs P1 and P5. -/
theorem test_encode_words : encode (.addi 0 4 5) = 0x20040005 ∧ encode .syscall = 0x0000000C ∧
    encode (.jr 31) = 0x03E00008 ∧ encode (.mul 5 6 3) = 0x00A61802 ∧ encode (.lui 7 0x8000) = 0x3C078000 := by decide

/-- No two rows of a map share a code (R66, R67). -/
theorem test_maps_have_distinct_codes :
    (primaryMap.map (·.1)).Nodup ∧ (functMap.map (·.1)).Nodup ∧ (0 : BitVec 6) ∉ primaryMap.map (·.1) := by decide

theorem test_table_word : decodeTableWord 32 0x0022182A = some (.slt 1 2 3) ∧ decodeTableWord 32 0 = none := by decide

/-! ### Well-formedness: an ill-formed term for each check -/

theorem test_wf_register : regInRange 31 = true ∧ regInRange 32 = false := by decide
theorem test_wf_signed : signedInRange (-32768) = true ∧ signedInRange 32767 = true ∧
    signedInRange (-32769) = false ∧ signedInRange 32768 = false := by decide
theorem test_wf_unsigned : unsignedInRange 0 = true ∧ unsignedInRange 65535 = true ∧
    unsignedInRange (-1) = false ∧ unsignedInRange 65536 = false := by decide
theorem test_wf_image : Image.wellFormed ⟨1, 0, 1, [5], [0], [7]⟩ = true ∧
    Image.wellFormed ⟨2, 0, 1, [5], [0, 0], [7]⟩ = false ∧ Image.wellFormed ⟨1, 0, 1, [5], [], [7]⟩ = false ∧
    Image.wellFormed ⟨1, 0, 2, [5], [0], [7]⟩ = false := by decide

/-! ### Immediate ALU -/

theorem test_addi_wraps : view (·.readReg 1) (stepWord 0x20210001 [(1, 0xFFFFFFFF)]) = some 0 := by decide
theorem test_addi_sign_extends : view (fun t => (t.readReg 1, t.pc)) (stepWord 0x20218000 [] [] 7) =
    some (0xFFFF8000, 8) := by decide
theorem test_addiu_negative : view (·.readReg 5) (stepWord 0x24A5FFFF [(5, 0x00010000)]) = some 0xFFFF := by decide
theorem test_ori_zero_extends : view (·.readReg 3) (stepWord 0x3403FFFF) = some 0x0000FFFF := by decide
theorem test_ori_keeps_upper : view (·.readReg 3) (stepWord 0x3463BEEF [(3, 0xDEAD0000)]) =
    some 0xDEADBEEF := by decide
theorem test_lui_clears_lower : view (·.readReg 7) (stepWord 0x3C278000 [(7, 0xFFFFFFFF), (1, 0x1234)]) =
    some 0x80000000 := by decide
theorem test_register_zero_discards : view (fun t => (t.readReg 0, t.pc)) (stepWord 0x3C001234) = some (0, 1) := by
  decide

/-! ### Branches -/

theorem test_beq_taken : view State.pc (stepWord 0x1022FFFD [(1, 7), (2, 7)] [] 6) = some 3 := by decide
theorem test_beq_wraps : view State.pc (stepWord 0x10228000 [] [] 2) = some 0xFFFF8002 := by decide
theorem test_bne_taken : view State.pc (stepWord 0x1500FFFE [(8, 3)] [] 4) = some 2 := by decide
theorem test_bne_not_taken : view State.pc (stepWord 0x1500FFFE [] [] 4) = some 5 := by decide

/-! ### Loads and stores -/

theorem test_lw_unaligned : view (·.readReg 8) (stepWord 0x8C080001 [] data8) = some 0x80443322 := by decide
theorem test_lw_address_wraps : view (·.readReg 1) (stepWord 0x8C410004 [(2, 0xFFFFFFFC)] data8) =
    some 0x44332211 := by decide
theorem test_lh_sign_extends : view (·.readReg 9) (stepWord 0x84090003 [] data8) = some 0xFFFF8044 := by decide
theorem test_lh_last_byte_out : view State.status (stepWord 0x84090007 [] data8) =
    some (.halted (.outOfBounds 7 .half .load)) := by decide
theorem test_lb_negative_offset : view (·.readReg 1) (stepWord 0x8041FFFC [(2, 8)] data8) = some 0xFFFFFF80 := by decide
theorem test_lb_below_zero : view State.status (stepWord 0x8001FFFF [] data8) =
    some (.halted (.outOfBounds 0xFFFFFFFF .byte .load)) := by decide
/-- The check applies also when `rt = 0`. -/
theorem test_load_to_zero_is_checked : view State.status (stepWord 0x8C000006 [] data8) =
    some (.halted (.outOfBounds 6 .word .load)) := by decide
theorem test_sb_low_byte : view dataBytes (stepWord 0xA0080001 [(8, 0x44332211)] data8) =
    some [0x11, 0x11, 0x33, 0x44, 0x80, 0xFF, 0x00, 0x00] := by decide
theorem test_sh_little_endian : view dataBytes (stepWord 0xA40B0002 [(11, 0xDEADBEEF)] data8) =
    some [0x11, 0x22, 0xEF, 0xBE, 0x80, 0xFF, 0x00, 0x00] := by decide
theorem test_sh_halts_whole : view (fun t => (t.status, dataBytes t)) (stepWord 0xA40B0007 [(11, 0xDEADBEEF)] data8) =
    some (.halted (.outOfBounds 7 .half .store), data8) := by decide
theorem test_sw_little_endian : view dataBytes (stepWord 0xAC0B0004 [(11, 0xDEADBEEF)] data8) =
    some [0x11, 0x22, 0x33, 0x44, 0xEF, 0xBE, 0xAD, 0xDE] := by decide
/-- Storing zeros leaves a canonical memory. -/
theorem test_sw_zero : view (fun t => (dataBytes t, Memory.wf t.dmem)) (stepWord 0xAC000000 [] data8) =
    some ([0, 0, 0, 0, 0x80, 0xFF, 0, 0], true) := by decide

/-! ### Register-type -/

theorem test_add_wraps : view (·.readReg 3) (stepWord 0x00221820 [(1, 0x7FFFFFFF), (2, 1)]) = some 0x80000000 := by
  decide
theorem test_add_to_source : view (·.readReg 1) (stepWord 0x00210820 [(1, 0x40000000)]) = some 0x80000000 := by decide
theorem test_mul_low_bits : view (·.readReg 3) (stepWord 0x00221802 [(1, 0xFFFFFFF9), (2, 6)]) = some 0xFFFFFFD6 := by
  decide
theorem test_mul_overflow : view (·.readReg 3) (stepWord 0x00221802 [(1, 0x10000), (2, 0x10000)]) = some 0 := by decide
theorem test_slt_unsigned : view (·.readReg 3) (stepWord 0x0022182A [(1, 0xFFFFFFFF), (2, 1)]) = some 0 := by decide
theorem test_slt_across_sign : view (·.readReg 3) (stepWord 0x0022182A [(1, 0x7FFFFFFF), (2, 0x80000000)]) =
    some 1 := by decide
theorem test_jr_past_end : view (fun t => (t.status, t.pc)) (step (booted [0x03E00008, 0, 0, 0] [])) =
    some (.halted (.jrPastEnd 4), 0) := by decide
theorem test_jr_jumps : view State.pc (step (withRegs (booted [0x00A00008, 0, 0, 0] []) [(5, 2)])) = some 2 := by decide
theorem test_print_most_negative : view State.out (stepWord 0x0000000C [(2, 1), (4, 0x80000000)]) =
    some [0x2D, 0x32, 0x31, 0x34, 0x37, 0x34, 0x38, 0x33, 0x36, 0x34, 0x38, 0x0A] := by decide
theorem test_print_zero : view State.out (stepWord 0x0000000C [(2, 1)]) = some [0x30, 0x0A] := by decide
theorem test_print_character : view (fun t => (t.out, t.pc)) (stepWord 0x0000000C [(2, 11), (4, 0x00000141)]) =
    some ([0x41], 1) := by decide
theorem test_bad_syscall_compares_whole_code : view State.status (stepWord 0x0000000C [(2, 0x0001000A)]) =
    some (.halted (.badSyscall 0x0001000A)) := by decide
theorem test_exit_syscall : view (fun t => (t.status, t.out)) (stepWord 0x0000000C [(2, 10)]) =
    some (.halted .exitSyscall, []) := by decide

/-! ### The step and the launch -/

theorem test_empty_run_is_past_end : view State.status (step State.reset) = some (.halted (.pastEnd 0)) := by decide
/-- The illegal word is traced before it halts. -/
theorem test_trace_before_halt : view (fun t => (t.tr, t.status)) (step (booted [0xFC000000] [] true)) =
    some ([⟨0, 0xFC000000, 1⟩], .halted (.badInstruction 0xFC000000)) := by decide
theorem test_past_end_is_not_traced : view State.tr (step { booted [0x20010001] [] true with pc := 1 }) = some [] := by
  decide

/-- The container of program P1 (section 2.6). -/
def containerP1 : List Byte :=
  [0x6D, 0x31, 0x70, 0x73, 0x04, 0, 0, 0, 0, 0, 0, 0] ++
  [0x20, 0x04, 0x00, 0x05, 0x20, 0x02, 0x00, 0x01, 0x00, 0x00, 0x00, 0x0C, 0x03, 0xE0, 0x00, 0x08] ++
  [0, 0, 0, 0, 0, 0, 0, 0, 0, 0, 0, 0, 0, 0, 0, 0, 0, 0]

/-- A loader whose allocations all succeed. -/
def loader : LoaderParams := ⟨defaultMagic, fun _ _ => true⟩

theorem test_load_p1 : load loader (some containerP1) =
    .ok ⟨4, 0, 0, [0x20040005, 0x20020001, 0x0000000C, 0x03E00008], [0, 0, 0, 0], []⟩ := by decide
/-- The truncated file of section 2.6. -/
theorem test_load_truncated : ((load loader (some (containerP1.take 26))).toOption.map Image.imem) =
    some [0x20040005, 0x20020001, 0x0000000C, 0x03E00000] := by decide
/-- Example S10. -/
theorem test_load_bad_magic : load loader (some [0x6D, 0x31, 0x70, 0x74]) = .error .badMagic := by decide
/-- Byte orders of the container fields (R188, R189) and bytes after the data (R192). -/
theorem test_load_byte_orders :
    load loader (some (container defaultMagic ⟨1, 0x01020304, 3, [0x20040005], [0xA1B2C3D4], [9, 0, 8]⟩ ++ [1, 2])) =
      .ok ⟨1, 0x01020304, 3, [0x20040005], [0xA1B2C3D4], [9, 0, 8]⟩ := by decide

/-! ### The assembler (words of 95_test_vectors.md) -/

theorem test_assemble_lines : assembleLine "ADDI $4, $0, 5" = some 0x20040005 ∧
    assembleLine "LB $1, -4($2)" = some 0x8041FFFC ∧ assembleLine "BNE $8, $0, -2" = some 0x1500FFFE ∧
    assembleLine "mul $3, $5, $6" = some 0x00A61802 ∧ assembleLine "LUI $7, 0x8000" = some 0x3C078000 := by decide
theorem test_assemble_rest : assembleLine "SYSCALL" = some 0x0000000C ∧ assembleLine "JR $31" = some 0x03E00008 ∧
    assembleLine "ORI $3, $3, 0xBEEF" = some 0x3463BEEF := by decide
theorem test_assemble_refuses : assembleLine "ADDI $4, $0, 32768" = none ∧ assembleLine "ORI $4, $0, -1" = none ∧
    assembleLine "JR $32" = none ∧ assembleLine "nop" = none := by decide
/-- The spellings that log entries 28 and 29 settle; the word of `-32768` is that of 95_test_vectors.md section 2.2. -/
theorem test_assemble_spellings : assembleLine "BEQ $1,$2,0x8000" = none ∧
    assembleLine "BEQ $1,$2,-32768" = some 0x10228000 ∧ assembleLine "ADDI $004, $0, 0x5" = some 0x20040005 ∧
    assembleLine "BNE $8,$0,-0x2" = some 0x1500FFFE := by decide

/-! ### Witnesses: states and operands that meet the hypotheses of each statement -/

theorem witness_DecodesExactly : (0x3C278000 : Word) &&& examinedBits (.lui 7 0x8000) = encode (.lui 7 0x8000) := by
  decide

theorem witness_DecodeFollows_primary :
    (([0x1022FFFD, 0x1500FFFE, 0x20040005, 0x24A5FFFF, 0x3463BEEF, 0x3C278000, 0x8041FFFC, 0x84090004, 0x8C410004,
      0xA0080001, 0xA40B0002, 0xAC0B0004] : List Word).map Word.opcode) =
      [0x04, 0x05, 0x08, 0x09, 0x0D, 0x0F, 0x20, 0x21, 0x23, 0x28, 0x29, 0x2B] := by decide
theorem witness_DecodeFollows_funct :
    (([0x00A61802, 0x03E00008, 0x03FFFFCC, 0x00221FE0, 0x00A6382A] : List Word).map fun w => (w.opcode, w.funct)) =
      [(0, 0x02), (0, 0x08), (0, 0x0C), (0, 0x20), (0, 0x2A)] := by decide
theorem witness_DecodeFollows_illegal :
    (0xFC000000 : Word).opcode ∉
      ([0, 0x04, 0x05, 0x08, 0x09, 0x0D, 0x0F, 0x20, 0x21, 0x23, 0x28, 0x29, 0x2B] : List (BitVec 6)) ∧
    (0x00000021 : Word).opcode = 0 ∧
    (0x00000021 : Word).funct ∉ ([0x02, 0x08, 0x0C, 0x20, 0x2A] : List (BitVec 6)) := by decide

/-- Operand texts for the assembler statement: the last number in range and the first out of it, for each range. -/
theorem witness_AssembledLines : (["$31", "$32"].map fun r => registerOperand r.toList) = [some 31, some 32] ∧
    (["-32768", "-32769", "32767", "32768", "0", "-1", "65535", "0x10000"].map fun v => immediateOperand v.toList) =
      [some (-32768), some (-32769), some 32767, some 32768, some 0, some (-1), some 65535, some 65536] := by decide
theorem witness_AssemblerReadsNumbers : 0 ≤ (0x7FFFFFFF : Word).toInt := by decide
theorem witness_AssemblerLinesDivide : "ADDI".toList ≠ [] ∧ ∀ c ∈ "ADDI".toList, c ∉ [' ', '\t', ',', '(', ')'] := by
  simp
theorem witness_OnlyTheSeventeen :
    "nop".toList ∉ ["addi", "addiu", "ori", "lui", "beq", "bne", "lb", "lh", "lw", "sb", "sh", "sw", "add", "syscall",
      "mul", "slt", "jr"].map String.toList := by decide

theorem witness_StepExecutes : (booted [0x20040005] []).status = .running ∧
    (booted [0x20040005] []).pc.toNat < (booted [0x20040005] []).n.toNat ∧
    decode (Memory.read (booted [0x20040005] []).imem 0) = .ok (.addi 0 4 5) := by decide

theorem witness_PastEnd : ((booted [] []).halt .exitSyscall).status = .halted .exitSyscall ∧
    (booted [] []).status = .running ∧ (booted [] []).n.toNat ≤ (booted [] []).pc.toNat ∧
    (booted [0x20040005] []).pc.toNat < (booted [0x20040005] []).n.toNat ∧
    (view State.pc (step (booted [0x20040005] []))).isSome = true ∧
    (⟨1, 1, 0, [0x03E00008], [0], []⟩ : Image).n.toNat ≤ (⟨1, 1, 0, [0x03E00008], [0], []⟩ : Image).entry.toNat := by
  decide

theorem witness_IllegalWord : (booted [0] []).status = .running ∧
    (booted [0] []).pc.toNat < (booted [0] []).n.toNat ∧
    decode (Memory.read (booted [0] []).imem 0) = .error (.badFunct 0) := by decide

/-- A state whose step prints with trace on: the step of the statements on `OUT`, `TR` and the latches. -/
def printing : State := withRegs (booted [0x0000000C] [] true) [(2, 11), (4, 0x41)]

theorem witness_steps_answer : view (fun t => (t.out, t.tr)) (step printing) =
    some ([0x41], [⟨0, 0x0000000C, 1⟩]) := by decide

theorem witness_HaltsArePrecise : view State.status (step (booted [0x03E00008] [])) =
    some (.halted (.jrPastEnd 1)) := by decide

theorem witness_HaltedRun : ((booted [] []).halt (.badSyscall 7)).status = .halted (.badSyscall 7) := by decide

theorem witness_Latches : view State.n (exec (.addi 0 1 1) printing) = some 1 ∧
    view State.n (step printing) = some 1 ∧ Image.wellFormed ⟨1, 0, 0, [0x20040005], [0], []⟩ = true := by decide

theorem witness_OnlyDestination : view (·.readReg 2) (exec (.addi 0 1 1) printing) = some 11 ∧
    (Instr.addi 0 1 1).dest ≠ some 2 := by decide

theorem witness_RegisterZero : view State.pc (exec (.addi 0 0 1) printing) = some 1 ∧
    (Instr.addi 0 0 1).dest = some 0 ∧ (Instr.lw 0 0 5).dest = some 0 ∧
    dataAccess (.lw 0 0 5) = some (.word, .load, 0, 5) ∧ dataAccess (.lw 0 7 5) = some (.word, .load, 0, 5) ∧
    printing.status = .running ∧ view State.status (exec (.addi 0 0 1) printing) = some .running ∧
    view State.status (exec (.lw 0 0 5) (booted [] data8)) = some (.halted (.outOfBounds 5 .word .load)) ∧
    (view State.status (exec (.lw 0 7 5) (booted [] data8))).isSome = true := by decide

theorem witness_OnlyStores : view (·.readByte 7) (exec (.sb 0 31 7) (booted [0, 0] data8)) = some 2 ∧
    (booted [0, 0] data8).readByte 7 = 0 := by decide

theorem witness_OnlyBranches : printing.status = .running ∧
    view State.status (exec (.addi 0 1 1) printing) = some .running ∧ (Instr.addi 0 1 1).mayRedirect = false := by
  decide

theorem witness_ExitStatus : ∀ t, HaltReason.exitSyscall ≠ .jrPastEnd t := by intro t h; cases h

theorem witness_StepKeeps : printing.Inv ∧ (view State.pc (step printing)).isSome = true :=
  ⟨⟨by decide, by decide, by decide, by decide, by decide, by decide, by decide, fun r h => by cases h⟩, by decide⟩

theorem witness_Canonical : Memory.wf (w := 8) [(1, 5)] = true ∧
    Memory.wf (Memory.write (w := 8) [] 1 5) = true ∧
    ∀ k, Memory.read (w := 8) [(1, 5)] k = Memory.read (Memory.write (w := 8) [] 1 5) k :=
  ⟨by decide, by decide, fun _ => rfl⟩

theorem witness_Boot : Image.wellFormed ⟨1, 0, 2, [0x20040005], [0], [7, 0]⟩ = true := by decide

theorem witness_Loader : loader.allocOk 0 0 = true ∧ loader.allocOk 1 2 = true := by decide

theorem witness_LuiThenOri : (31 : Reg) ≠ 0 := by decide

theorem witness_BranchPast : (booted [0x10000001] []).status = .running ∧
    (booted [0x10000001] []).pc.toNat < (booted [0x10000001] []).n.toNat ∧
    decode (booted [0x10000001] []).fetched = .ok (.beq 0 0 1) ∧
    (booted [0x10000001] []).n.toNat ≤ ((booted [0x10000001] []).branchTarget 1).toNat ∧
    decode (booted [0x141F0001] []).fetched = .ok (.bne 0 31 1) ∧
    (booted [0x141F0001] []).readReg 0 ≠ (booted [0x141F0001] []).readReg 31 ∧
    (booted [0x141F0001] []).n.toNat ≤ ((booted [0x141F0001] []).branchTarget 1).toNat := by decide

theorem witness_BranchToItself : (booted [0x10000000] []).status = .running ∧
    (booted [0x10000000] []).pc.toNat < (booted [0x10000000] []).n.toNat ∧
    decode (booted [0x10000000] []).fetched = .ok (.beq 0 0 0) ∧
    decode (booted [0x141F0000] []).fetched = .ok (.bne 0 31 0) ∧
    (booted [0x141F0000] []).readReg 0 ≠ (booted [0x141F0000] []).readReg 31 := by decide

/-- The last address in bounds for each width, which the load and the store statements cover. -/
theorem witness_inBounds : ((booted [] data8).effectiveAddress 0 7).toNat + 1 ≤ (booted [] data8).memsize.toNat ∧
    ((booted [] data8).effectiveAddress 0 6).toNat + 2 ≤ (booted [] data8).memsize.toNat ∧
    ((booted [] data8).effectiveAddress 0 4).toNat + 4 ≤ (booted [] data8).memsize.toNat := by decide

/-- The first address out of bounds for each width. -/
theorem witness_OutOfBounds :
    (booted [] data8).memsize.toNat < ((booted [] data8).effectiveAddress 0 8).toNat + Width.byte.bytes ∧
    (booted [] data8).memsize.toNat < ((booted [] data8).effectiveAddress 0 7).toNat + Width.half.bytes ∧
    (booted [] data8).memsize.toNat < ((booted [] data8).effectiveAddress 0 5).toNat + Width.word.bytes ∧
    dataAccess (.sb 0 1 8) = some (.byte, .store, 0, 8) ∧ dataAccess (.lh 0 1 7) = some (.half, .load, 0, 7) ∧
    dataAccess (.sw 0 1 5) = some (.word, .store, 0, 5) := by decide

theorem witness_LoadAfterStore : (3 : Reg) ≠ 0 ∧
    view (·.effectiveAddress 0 4) (exec (.sw 0 31 4) (booted [0, 0] data8)) = some 4 ∧
    view (·.effectiveAddress 0 6) (exec (.sh 0 31 6) (booted [0, 0] data8)) = some 6 ∧
    view (·.effectiveAddress 0 7) (exec (.sb 0 31 7) (booted [0, 0] data8)) = some 7 := by decide

theorem witness_Jr : ((withRegs (booted [0, 0] []) [(5, 1)]).readReg 5).toNat <
      (withRegs (booted [0, 0] []) [(5, 1)]).n.toNat ∧
    (booted [0, 0] []).n.toNat ≤ ((booted [0, 0] []).readReg 31).toNat := by decide

theorem witness_Syscall : (withRegs (booted [] []) [(2, 1)]).readReg 2 = 1 ∧
    (withRegs (booted [] []) [(2, 10)]).readReg 2 = 10 ∧ (withRegs (booted [] []) [(2, 11)]).readReg 2 = 11 ∧
    (booted [] []).readReg 2 ∉ ([1, 10, 11] : List Word) := by decide

end Sys2Proof.Tests
end

section
/-! SUPPORT. What every effect of an instruction and of a step keeps: the latches (10_state.md R27), the registers but
the destination (R22), the invariant, and what `OUT` holds (R29); each obligation of 10_state.md follows its lemmas. -/

namespace Sys2Proof.Machine

variable {s t u : State} {i : Instr}

/-! ### Latches (10_state.md R27) -/

theorem SameConfig.trans (hst : SameConfig s t) (htu : SameConfig t u) : SameConfig s u := by
  obtain ⟨hn, he, hm, hi, ht⟩ := hst
  obtain ⟨hn', he', hm', hi', ht'⟩ := htu
  exact ⟨hn'.trans hn, he'.trans he, hm'.trans hm, hi'.trans hi, ht'.trans ht⟩

theorem sameConfig_record (s : State) (w : Word) : SameConfig s (s.record w) := by simp [SameConfig]

theorem Effect.sameConfig (he : Effect s i t) : SameConfig s t := by
  cases he <;> simp [SameConfig]

theorem StepEffect.sameConfig (he : StepEffect s t) : SameConfig s t := by
  cases he with
  | pastEnd hn => simp [SameConfig]
  | illegal e hn hd => simp [SameConfig]
  | executed i t hn hd he => exact (sameConfig_record s _).trans he.sameConfig

/-- After reset each index below `N` holds the image's word (70_reset_and_hazards.md R180, step 5). -/
theorem read_boot_imem {img : Image} (himg : img.wellFormed = true) (trace : Bool) {k : Nat} (hk : k < img.n.toNat) :
    some (Memory.read (State.boot img trace).imem k) = img.imem[k]? := by
  simp only [Image.wellFormed, Bool.and_eq_true, beq_iff_eq] at himg
  have hlen : k < img.imem.length := by omega
  simp [State.boot, Memory.read_ofList, hk, hlen]

/-- Settles O15: neither an instruction's effects nor the trace record writes a latch, and reset copies the image. -/
theorem latchesKeepTheirLaunchValues : Obligations.LatchesKeepTheirLaunchValues :=
  ⟨fun _ _ _ h => (exec_cases h).sameConfig, fun _ _ h => (step_cases h).2.sameConfig,
    fun _ trace himg => ⟨rfl, rfl, rfl, rfl, fun _ hk => read_boot_imem himg trace hk⟩⟩

/-! ### Registers (10_state.md R21, R22) -/

theorem Effect.readReg_of_ne_dest (he : Effect s i t) {r : Reg} (hr : i.dest ≠ some r) :
    t.readReg r = s.readReg r := by
  cases he with
  | wrote d v hd =>
    have hne : r ≠ d := fun e => hr (hd.trans (congrArg some e.symm))
    simp [State.readReg_writeReg, hne]
  | _ => simp

/-- Settles O16: of the effects of an instruction only the write of its destination changes a register. -/
theorem onlyTheDestinationRegisterChanges : Obligations.OnlyTheDestinationRegisterChanges :=
  fun _ _ _ _ h hr => (exec_cases h).readReg_of_ne_dest hr

/-- An instruction that may redirect writes no register. -/
theorem dest_of_mayRedirect (hi : i.mayRedirect = true) : i.dest = none := by
  revert hi
  cases i <;> simp [Instr.mayRedirect, Instr.dest]

/-- A store writes no register. -/
theorem dest_of_store {width : Width} {rs : Reg} {imm : Imm} (ha : dataAccess i = some (width, .store, rs, imm)) :
    i.dest = none := by
  revert ha
  cases i <;> simp [dataAccess, Instr.dest]

/-- An instruction with a destination writes it and falls through, or ends the run. -/
theorem Effect.wrote_or_halted {d : Reg} (he : Effect s i t) (hd : i.dest = some d) :
    (∃ v, t = (s.writeReg d v).fallThrough) ∨ ∃ reason, t = s.halt reason := by
  cases he with
  | wrote d' v hd' =>
    cases hd.symm.trans hd'
    exact .inl ⟨v, rfl⟩
  | jumped target hi => cases hd.symm.trans (dest_of_mayRedirect hi)
  | stored width rs imm v ha hb => cases hd.symm.trans (dest_of_store ha)
  | printed bytes hi hc => subst hi; cases hd
  | returned rs hi ht => exact .inr ⟨_, rfl⟩
  | exited hi hc => exact .inr ⟨_, rfl⟩
  | badService hi hc => exact .inr ⟨_, rfl⟩
  | leftMemory width dir rs imm ha hb => exact .inr ⟨_, rfl⟩

/-- What is left of an instruction that writes register 0 and does not end the run is the advance of `pc`. -/
theorem exec_of_dest_zero (hd : i.dest = some 0) (h : exec i s = .next t) (ht : t.status = .running) :
    t = s.fallThrough := by
  obtain ⟨v, rfl⟩ | ⟨reason, rfl⟩ := (exec_cases h).wrote_or_halted hd
  · simp
  · simp at ht

/-- Every load is `loadAt` to some register. -/
theorem exec_of_load {width : Width} {rs : Reg} {imm : Imm} (ha : dataAccess i = some (width, .load, rs, imm))
    (s : State) : ∃ rt, exec i s = s.loadAt width rs rt imm := by
  cases i with
  | lb _ rt _ => cases ha; exact ⟨rt, rfl⟩
  | lh _ rt _ => cases ha; exact ⟨rt, rfl⟩
  | lw _ rt _ => cases ha; exact ⟨rt, rfl⟩
  | _ => cases ha

/-- How a load leaves the run status depends on its bounds check alone (20_memory.md R45). -/
theorem loadAt_status {width : Width} {rs rt : Reg} {imm : Imm} (h : s.loadAt width rs rt imm = .next t) :
    t.status = if s.inBounds (s.effectiveAddress rs imm) width then s.status
      else .halted (.outOfBounds (s.effectiveAddress rs imm) width .load) := by
  cases hb : s.inBounds (s.effectiveAddress rs imm) width with
  | true =>
    cases (loadAt_of_inBounds hb).symm.trans h
    simp
  | false =>
    cases (loadAt_of_not_inBounds hb).symm.trans h
    simp

/-- Two loads of one width and address leave the same run status, whatever their destinations. -/
theorem exec_load_status_congr {j : Instr} {width : Width} {rs : Reg} {imm : Imm}
    (hi : dataAccess i = some (width, .load, rs, imm)) (hj : dataAccess j = some (width, .load, rs, imm))
    (ht : exec i s = .next t) (hu : exec j s = .next u) : t.status = u.status := by
  obtain ⟨_, hi⟩ := exec_of_load hi s
  obtain ⟨_, hj⟩ := exec_of_load hj s
  rw [loadAt_status (hi.symm.trans ht), loadAt_status (hj.symm.trans hu)]

/-- Settles O17: register 0 has no readable slot, its write is discarded, and the bounds check of a load comes first. -/
theorem registerZeroIsTiedToZero : Obligations.RegisterZeroIsTiedToZero :=
  ⟨fun s => s.readReg_zero, fun _ _ _ hd _ h ht => exec_of_dest_zero hd h ht,
    fun _ _ _ _ _ _ _ _ _ hi _ hj ht hu => by rw [exec_load_status_congr hi hj ht hu]⟩

/-! ### The invariant -/

theorem Effect.slot_zero (he : Effect s i t) : t.regs[0] = s.regs[0] := by
  cases he <;> simp

theorem Effect.tr_eq (he : Effect s i t) : t.tr = s.tr := by
  cases he <;> simp

/-- Data memory stays canonical (log entry 4). -/
theorem Effect.wf_dmem (he : Effect s i t) (h : Memory.wf s.dmem = true) : Memory.wf t.dmem = true := by
  cases he with
  | stored width rs imm v ha hb => exact wf_bytesWritten h _ _ _
  | _ => simpa using h

/-- A store's bounds check keeps every address of data memory below `MEMSIZE` (20_memory.md R41, R45). -/
theorem Effect.below_dmem (he : Effect s i t) (h : Memory.below s.memsize.toNat s.dmem = true) :
    Memory.below s.memsize.toNat t.dmem = true := by
  cases he with
  | stored width rs imm v ha hb => exact below_bytesWritten h _ _ _ hb
  | _ => simpa using h

/-- An instruction that ends the run leaves a state that explains the reason (60_exceptions.md R150): the halt is
precise, so the reason's condition can still be read off (decision D7). -/
theorem Effect.explained (he : Effect s i t) (hs : s.status = .running) (hn : s.hasNext = true)
    (hd : decode s.fetched = .ok i) {reason : HaltReason} (ht : t.status = .halted reason) :
    reason.ExplainedBy t := by
  cases he with
  | returned rs hi hlt =>
    cases ht
    subst hi
    exact ⟨hn, rs, by simpa using hd, by simp, hlt⟩
  | exited hi hc =>
    cases ht
    subst hi
    exact ⟨hn, by simpa using hd, by simpa using hc⟩
  | badService hi hc =>
    cases ht
    subst hi
    exact ⟨hn, by simpa using hd, by simp, hc⟩
  | leftMemory width dir rs imm ha hb =>
    cases ht
    exact ⟨hn, i, rs, imm, by simpa using hd, ha, by simp, hb⟩
  | _ => simp [hs] at ht

/-- The invariant passes to a state that differs from `s` in no latch, trace record or slot 0, has sound data memory
and explains its own halt. -/
theorem State.Inv.transfer (h : s.Inv) (hc : SameConfig s t) (h0 : t.regs[0] = s.regs[0]) (htr : t.tr = s.tr)
    (hwf : Memory.wf t.dmem = true) (hbelow : Memory.below s.memsize.toNat t.dmem = true)
    (hx : ∀ reason, t.status = .halted reason → reason.ExplainedBy t) : t.Inv := by
  obtain ⟨hn, -, hm, hi, ht⟩ := hc
  exact {
    zeroSlot := h0.trans h.zeroSlot
    dmemCanonical := hwf
    dmemInRange := by rwa [hm]
    imemCanonical := by rw [hi]; exact h.imemCanonical
    imemInRange := by rw [hi, hn]; exact h.imemInRange
    traceOff := by rw [ht, htr]; exact h.traceOff
    traceTrue := by rw [htr, hn, hi]; exact h.traceTrue
    haltExplained := hx }

/-- A halt keeps the invariant when the state explains its reason. -/
theorem State.Inv.halt (h : s.Inv) {reason : HaltReason} (hx : reason.ExplainedBy (s.halt reason)) :
    (s.halt reason).Inv :=
  h.transfer (by simp [SameConfig]) rfl rfl h.dmemCanonical h.dmemInRange fun _ hr => by cases hr; exact hx

/-- A record of the trace after `record` is an old one or the new one. -/
theorem mem_tr_of_mem_record {w : Word} {r : TraceRecord} (hr : r ∈ (s.record w).tr) :
    r ∈ s.tr ∨ r = ⟨s.pc, w, s.n⟩ := by
  rw [State.record_tr] at hr
  split at hr
  · simpa using hr
  · exact .inl hr

/-- The trace record of a fetch is true (10_state.md R30), so it keeps the invariant of a running core. -/
theorem State.Inv.record (h : s.Inv) (hs : s.status = .running) (hn : s.hasNext = true) :
    (s.record s.fetched).Inv where
  zeroSlot := by simpa using h.zeroSlot
  dmemCanonical := by simpa using h.dmemCanonical
  dmemInRange := by simpa using h.dmemInRange
  imemCanonical := by simpa using h.imemCanonical
  imemInRange := by simpa using h.imemInRange
  traceOff := fun hoff => by
    rw [State.record_trace] at hoff
    simpa [hoff] using h.traceOff hoff
  traceTrue := fun r hr => by
    rw [State.record_n, State.record_imem]
    obtain hold | rfl := mem_tr_of_mem_record hr
    · exact h.traceTrue r hold
    · exact ⟨rfl, by simpa [State.hasNext] using hn, rfl⟩
  haltExplained := by simp [hs]

theorem Effect.inv (he : Effect s i t) (h : s.Inv) (hs : s.status = .running) (hn : s.hasNext = true)
    (hd : decode s.fetched = .ok i) : t.Inv :=
  h.transfer he.sameConfig he.slot_zero he.tr_eq (he.wf_dmem h.dmemCanonical) (he.below_dmem h.dmemInRange)
    fun _ ht => he.explained hs hn hd ht

theorem StepEffect.inv (he : StepEffect s t) (h : s.Inv) (hs : s.status = .running) : t.Inv := by
  cases he with
  | pastEnd hn => exact h.halt ⟨rfl, by simpa [State.hasNext] using hn⟩
  | illegal e hn hd => exact (h.record hs hn).halt ⟨by simpa using hn, by simp, by simp [hd]⟩
  | executed i t hn hd he => exact he.inv (h.record hs hn) (by simpa using hs) (by simpa using hn) (by simpa using hd)

/-- Settles O22: each of the step's effects on a running core keeps the invariant, and only a running core steps. -/
theorem stepKeepsTheInvariant : Obligations.StepKeepsTheInvariant := fun _ _ h hstep => by
  obtain ⟨hs, he⟩ := step_cases hstep
  exact he.inv h hs

/-! ### The output stream (10_state.md R29) -/

/-- An outcome with its next state, if there is one, changed. -/
def mapNext (f : State → State) : Result → Result
  | .next t => .next (f t)
  | .fault r => .fault r
  | .refused r => .refused r

@[simp] theorem mapNext_next (f : State → State) (t : State) : mapNext f (.next t) = .next (f t) := rfl

theorem mapNext_eq_next {f : State → State} {r : Result} : mapNext f r = .next u ↔ ∃ t, r = .next t ∧ f t = u := by
  cases r <;> simp [mapNext]

/-- A change of the state that no instruction can observe: it keeps every field an instruction reads and commutes with
every operation an instruction is made of. -/
structure Unobserved (f : State → State) : Prop where
  regs : ∀ s, (f s).regs = s.regs
  pc : ∀ s, (f s).pc = s.pc
  dmem : ∀ s, (f s).dmem = s.dmem
  n : ∀ s, (f s).n = s.n
  memsize : ∀ s, (f s).memsize = s.memsize
  writeReg : ∀ s d v, (f s).writeReg d v = f (s.writeReg d v)
  memWrite : ∀ s a k v, (f s).memWrite a k v = f (s.memWrite a k v)
  fallThrough : ∀ s, (f s).fallThrough = f s.fallThrough
  redirect : ∀ s target, (f s).redirect target = f (s.redirect target)
  halt : ∀ s reason, (f s).halt reason = f (s.halt reason)
  emit : ∀ s bytes, (f s).emit bytes = f (s.emit bytes)

section

variable {f : State → State} (hf : Unobserved f)
include hf

theorem Unobserved.readReg (s : State) (r : Reg) : (f s).readReg r = s.readReg r :=
  State.readReg_congr (hf.regs s) r

theorem Unobserved.effectiveAddress (s : State) (rs : Reg) (imm : Imm) :
    (f s).effectiveAddress rs imm = s.effectiveAddress rs imm := by
  simp [State.effectiveAddress, hf.readReg]

theorem Unobserved.inBounds (s : State) (ea : Word) (width : Width) :
    (f s).inBounds ea width = s.inBounds ea width := by
  simp [State.inBounds, hf.memsize]

theorem Unobserved.finish (s : State) (d : Reg) (v : Word) : (f s).finish d v = mapNext f (s.finish d v) := by
  simp [State.finish, hf.writeReg, hf.fallThrough]

theorem Unobserved.branchIf (s : State) (taken : Bool) (imm : Imm) :
    (f s).branchIf taken imm = mapNext f (s.branchIf taken imm) := by
  cases taken <;> simp [State.branchIf, State.branchTarget, hf.pc, hf.redirect, hf.fallThrough]

theorem Unobserved.loadAt (s : State) (width : Width) (rs rt : Reg) (imm : Imm) :
    (f s).loadAt width rs rt imm = mapNext f (s.loadAt width rs rt imm) := by
  simp only [State.loadAt, hf.effectiveAddress, hf.inBounds, State.memRead_congr (hf.dmem s)]
  split <;> simp [hf.writeReg, hf.fallThrough, hf.halt]

theorem Unobserved.storeAt (s : State) (width : Width) (rs rt : Reg) (imm : Imm) :
    (f s).storeAt width rs rt imm = mapNext f (s.storeAt width rs rt imm) := by
  simp only [State.storeAt, hf.effectiveAddress, hf.inBounds, hf.readReg]
  split <;> simp [hf.memWrite, hf.fallThrough, hf.halt]

theorem Unobserved.execJr (s : State) (rs : Reg) : execJr rs (f s) = mapNext f (execJr rs s) := by
  simp only [Machine.execJr, hf.readReg, hf.n]
  split <;> simp [hf.redirect, hf.halt]

theorem Unobserved.serve (s : State) (service : Service) : (f s).serve service = f (s.serve service) := by
  cases service <;> simp [State.serve, hf.readReg, hf.emit, hf.fallThrough, hf.halt]

theorem Unobserved.execSyscall (s : State) : execSyscall (f s) = mapNext f (execSyscall s) := by
  simp only [Machine.execSyscall, hf.readReg]
  split <;> simp [hf.serve, hf.halt]

/-- An instruction does to the changed state what it does to the state itself. -/
theorem Unobserved.exec (i : Instr) (s : State) : exec i (f s) = mapNext f (exec i s) := by
  cases i with
  | addi | addiu | ori | lui | add | mul | slt =>
    simp [Machine.exec, execAddi, execAddiu, execOri, execLui, execAdd, execMul, execSlt, hf.readReg, hf.finish]
  | beq | bne => simp [Machine.exec, execBeq, execBne, State.regsEqual, hf.readReg, hf.branchIf]
  | lb | lh | lw => exact hf.loadAt ..
  | sb | sh | sw => exact hf.storeAt ..
  | syscall => exact hf.execSyscall s
  | jr rs => exact hf.execJr s rs

end

/-- The state with `p` printed before all that `OUT` holds. -/
def State.prependOut (p : List Byte) (s : State) : State := { s with out := p ++ s.out }

theorem unobserved_prependOut (p : List Byte) : Unobserved (State.prependOut p) where
  regs _ := rfl
  pc _ := rfl
  dmem _ := rfl
  n _ := rfl
  memsize _ := rfl
  writeReg s d v := by unfold State.writeReg; split <;> rfl
  memWrite _ _ _ _ := rfl
  fallThrough _ := rfl
  redirect _ _ := rfl
  halt _ _ := rfl
  emit s bytes := by simp [State.emit, State.prependOut]

theorem record_prependOut (p : List Byte) (s : State) (w : Word) :
    (s.prependOut p).record w = (s.record w).prependOut p := by
  have htrace : (s.prependOut p).trace = s.trace := rfl
  simp only [State.record, htrace]
  split <;> rfl

/-- No step reads what `OUT` already holds. -/
theorem step_prependOut (p : List Byte) (s : State) :
    step (s.prependOut p) = mapNext (State.prependOut p) (step s) := by
  cases hs : s.status with
  | halted reason => simp [step, hs, State.prependOut, mapNext]
  | running =>
    have hs' : (s.prependOut p).status = .running := hs
    cases hn : s.hasNext with
    | false => rw [step_of_ended hs (fetchStage_of_past hn), step_of_ended hs' (fetchStage_of_past hn)]; rfl
    | true =>
      cases hd : decode s.fetched with
      | error e =>
        rw [step_of_ended hs (fetchStage_of_illegal hn hd), step_of_ended hs' (fetchStage_of_illegal hn hd),
          record_prependOut]
        rfl
      | ok i =>
        rw [step_of_ready hs (fetchStage_of_legal hn hd), step_of_ready hs' (fetchStage_of_legal hn hd),
          record_prependOut]
        exact (unobserved_prependOut p).exec i _

/-- A step appends the same bytes to whatever `OUT` holds. -/
theorem step_appends (h : step s = .next t) :
    ∃ bytes, ∀ o, step { s with out := o } = .next { t with out := o ++ bytes } := by
  have hstep : ∀ o, step { s with out := o } = mapNext (State.prependOut o) (step { s with out := [] }) := fun o => by
    simpa [State.prependOut] using step_prependOut o { s with out := [] }
  obtain ⟨t₀, ht₀, rfl⟩ := mapNext_eq_next.mp ((hstep s.out).symm.trans h)
  exact ⟨t₀.out, fun o => by rw [hstep, ht₀]; rfl⟩

theorem Effect.out_eq_or_prints (he : Effect s i t) :
    t.out = s.out ∨ i = .syscall ∧ (s.readReg 2 = 1 ∨ s.readReg 2 = 11) := by
  cases he with
  | printed bytes hi hc => exact .inr ⟨hi, hc⟩
  | _ => simp

theorem StepEffect.out_eq_or_prints (he : StepEffect s t) :
    t.out = s.out ∨ decode s.fetched = .ok .syscall ∧ (s.readReg 2 = 1 ∨ s.readReg 2 = 11) := by
  cases he with
  | pastEnd hn => simp
  | illegal e hn hd => simp
  | executed i t hn hd he =>
    obtain hout | ⟨rfl, hc⟩ := he.out_eq_or_prints
    · exact .inl (by simpa using hout)
    · exact .inr ⟨hd, by simpa using hc⟩

/-- Settles O11: the bytes a step appends do not depend on `OUT`, and only a print service has any. -/
theorem onlyPrintServicesAppendToOut : Obligations.OnlyPrintServicesAppendToOut :=
  ⟨fun _ _ => rfl, fun s t h => by
    obtain ⟨bytes, happ⟩ := step_appends h
    have hout : t.out = s.out ++ bytes := congrArg State.out (Host.Outcome.next.inj (h.symm.trans (happ s.out)))
    refine ⟨bytes, hout, fun hne => ?_, happ⟩
    obtain heq | hprints := (step_cases h).2.out_eq_or_prints
    · exact absurd (by simpa [heq] using hout) hne
    · exact hprints⟩

end Sys2Proof.Machine
end

section
/-! SUPPORT. Data memory: the order of an access's bytes and what a store leaves to be read (20_memory.md R40 to R47),
the bounds check of all six loads and stores (R45), and that a canonical memory is the only one that reads as it does. -/

namespace Sys2Proof.Machine

variable {s t : State} {i : Instr}

/-! ### The effective address (20_memory.md R43) -/

/-- Settles O40: both sides are the register's value plus the signed offset, wrapped once. -/
theorem effectiveAddressAddsTheSignedOffset : Obligations.EffectiveAddressAddsTheSignedOffset := fun s rs imm => by
  simp [State.effectiveAddress, sext16, BitVec.signExtend, BitVec.ofInt_add]

/-! ### Bytes of an access (20_memory.md R44, R47) -/

/-- What each address holds after `MemWrite`. -/
theorem State.readByte_memWrite (s : State) (a n : Nat) (v : Word) (b : Nat) :
    (s.memWrite a n v).readByte b = if a ≤ b ∧ b < a + n then v.extractLsb' (8 * (b - a)) 8 else s.readByte b :=
  read_bytesWritten s.dmem a v n b

/-- Bit `j` of what `MemRead` gives is bit `j % 8` of the byte `j / 8` places up. -/
theorem State.getLsbD_memRead (s : State) (a n : Nat) {j : Nat} (hj : j < 32) :
    (s.memRead a n).getLsbD j = (decide (j < 8 * n) && (s.readByte (a + j / 8)).getLsbD (j % 8)) := by
  induction n with
  | zero => simp [State.memRead]
  | succ n ih =>
    simp only [State.memRead, BitVec.getLsbD_or, ih, BitVec.getLsbD_shiftLeft, BitVec.getLsbD_setWidth]
    by_cases hlow : j < 8 * n
    · have hnext : j < 8 * (n + 1) := by omega
      simp [hlow, hnext]
    · by_cases hbyte : j < 8 * (n + 1)
      · have hdiv : j / 8 = n := by omega
        have hmod : j % 8 = j - 8 * n := by omega
        have hsub : j - 8 * n < 32 := by omega
        simp [hlow, hbyte, hdiv, hmod, hsub, hj]
      · have hhigh : 8 ≤ j - 8 * n := by omega
        simp [hlow, hbyte, BitVec.getLsbD_of_ge _ _ hhigh]

/-- Byte `k` of a read is the byte at the `k`-th address. -/
theorem State.extractLsb'_memRead (s : State) (a : Nat) {n k : Nat} (hkn : k < n) (hk : k < 4) :
    (s.memRead a n).extractLsb' (8 * k) 8 = s.readByte (a + k) := by
  refine BitVec.eq_of_getLsbD_eq fun j hj => ?_
  have hbit : 8 * k + j < 32 := by omega
  have hread : 8 * k + j < 8 * n := by omega
  have hdiv : (8 * k + j) / 8 = k := by omega
  have hmod : (8 * k + j) % 8 = j := by omega
  simp [s.getLsbD_memRead a n hbit, hj, hread, hdiv, hmod]

/-- A read inside the bytes just written gives their slice of the value. -/
theorem State.memRead_memWrite_within (s : State) (a : Nat) (v : Word) {m k n : Nat} (h : k + n ≤ m) :
    (s.memWrite a m v).memRead (a + k) n = (v.extractLsb' (8 * k) (8 * n)).zeroExtend 32 := by
  refine BitVec.eq_of_getLsbD_eq fun j hj => ?_
  rw [State.getLsbD_memRead _ _ _ hj]
  by_cases hread : j < 8 * n
  · have hin : a ≤ a + k + j / 8 ∧ a + k + j / 8 < a + m := by omega
    have hmod : j % 8 < 8 := by omega
    have hpos : 8 * (a + k + j / 8 - a) + j % 8 = 8 * k + j := by omega
    simp [State.readByte_memWrite, hin, hmod, hpos, hread, hj]
  · simp [hread]

/-- Settles O45: reads inside a write give slices of it, and a byte of a read is the byte that memory holds. -/
theorem mixedWidthAccessesAliasByByte : Obligations.MixedWidthAccessesAliasByByte := fun s a v =>
  ⟨fun _ hk => s.memRead_memWrite_within a v (by omega), fun _ hk => s.memRead_memWrite_within a v (by omega),
    fun b n k _ hk => by rw [State.extractLsb'_memRead _ _ hk hk, State.readByte_memWrite]⟩

/-! ### The frame of data memory (20_memory.md R40, R44, R45) -/

/-- A byte of data memory that an instruction changes is one it stores, in bounds. -/
theorem Effect.stored_of_readByte_ne (he : Effect s i t) {b : Nat} (hne : t.readByte b ≠ s.readByte b) :
    ∃ width rs imm, dataAccess i = some (width, .store, rs, imm) ∧ (s.effectiveAddress rs imm).toNat ≤ b ∧
      b < (s.effectiveAddress rs imm).toNat + width.bytes ∧ b < s.memsize.toNat := by
  cases he with
  | stored width rs imm v ha hb =>
    rw [State.fallThrough_readByte, State.readByte_memWrite, ite_ne_right_iff] at hne
    obtain ⟨⟨hle, hlt⟩, -⟩ := hne
    exact ⟨width, rs, imm, ha, hle, hlt, by omega⟩
  | _ => simp at hne

/-- Settles O18: of the effects of an instruction only the store in bounds changes a byte. -/
theorem onlyStoresChangeDataMemory : Obligations.OnlyStoresChangeDataMemory :=
  fun _ _ _ _ h hne => (exec_cases h).stored_of_readByte_ne hne

/-! ### Accesses out of bounds (20_memory.md R45, 43_loads_stores.md R117) -/

/-- Every store is `storeAt` from some register. -/
theorem exec_of_store {width : Width} {rs : Reg} {imm : Imm} (ha : dataAccess i = some (width, .store, rs, imm))
    (s : State) : ∃ rt, exec i s = s.storeAt width rs rt imm := by
  cases i with
  | sb _ rt _ => cases ha; exact ⟨rt, rfl⟩
  | sh _ rt _ => cases ha; exact ⟨rt, rfl⟩
  | sw _ rt _ => cases ha; exact ⟨rt, rfl⟩
  | _ => cases ha

/-- A data access that fails its bounds check halts, whatever its direction. -/
theorem exec_of_not_inBounds {width : Width} {dir : Direction} {rs : Reg} {imm : Imm}
    (ha : dataAccess i = some (width, dir, rs, imm)) (hb : s.inBounds (s.effectiveAddress rs imm) width = false) :
    exec i s = .next (s.halt (.outOfBounds (s.effectiveAddress rs imm) width dir)) := by
  cases dir with
  | load =>
    obtain ⟨rt, hexec⟩ := exec_of_load ha s
    exact hexec.trans (loadAt_of_not_inBounds hb)
  | store =>
    obtain ⟨rt, hexec⟩ := exec_of_store ha s
    exact hexec.trans (storeAt_of_not_inBounds hb)

/-- Settles O43: the bounds check fails, and all six instructions make it before anything else. -/
theorem outOfBoundsAccessesHaltBeforeAnyEffect : Obligations.OutOfBoundsAccessesHaltBeforeAnyEffect :=
  fun i s width dir rs imm ha hlt => by
    have hb : s.inBounds (s.effectiveAddress rs imm) width = false := by
      rw [← Bool.not_eq_true, inBounds_iff]
      omega
    exact ⟨_, exec_of_not_inBounds ha hb, rfl⟩

/-! ### Canonical memories (log entry 4) -/

variable {w : Nat}

theorem Memory.wfFrom_cons {lo a : Nat} {v : BitVec w} {m : Memory w} :
    Memory.wfFrom lo ((a, v) :: m) = true ↔ lo ≤ a ∧ v ≠ 0 ∧ Memory.wfFrom (a + 1) m = true := by
  simp [Memory.wfFrom, and_assoc]

/-- A canonical memory that reads a nonzero value somewhere starts no higher than there. -/
theorem Memory.le_of_read_ne_zero {lo k : Nat} {m : Memory w} (hm : Memory.wfFrom lo m = true)
    (hk : Memory.read m k ≠ 0) : lo ≤ k :=
  Nat.le_of_not_lt fun hlt => hk (Memory.read_of_lt hm hlt)

/-- What a canonical memory reads beyond its first entry, spelt over the whole memory. -/
theorem Memory.read_tail {a : Nat} {v : BitVec w} {m : Memory w} (hm : Memory.wfFrom (a + 1) m = true) (k : Nat) :
    Memory.read m k = if k = a then 0 else Memory.read ((a, v) :: m) k := by
  by_cases hk : k = a
  · simpa [hk] using Memory.read_of_lt hm (Nat.lt_succ_self a)
  · simp [hk, Memory.read]

/-- Canonical memories that read alike have the same entries: each first entry shows in the other memory. -/
theorem Memory.eq_of_wfFrom_of_read_eq {lo lo' : Nat} {m m' : Memory w} (hm : Memory.wfFrom lo m = true)
    (hm' : Memory.wfFrom lo' m' = true) (h : ∀ k, Memory.read m k = Memory.read m' k) : m = m' := by
  induction m generalizing lo lo' m' with
  | nil =>
    cases m' with
    | nil => rfl
    | cons c' m' =>
      obtain ⟨-, hv', -⟩ := Memory.wfFrom_cons.mp hm'
      exact absurd (by simpa [Memory.read] using (h c'.1).symm) hv'
  | cons c m ih =>
    obtain ⟨a, v⟩ := c
    obtain ⟨-, hv, htail⟩ := Memory.wfFrom_cons.mp hm
    have ha : Memory.read m' a = v := by simpa [Memory.read] using (h a).symm
    cases m' with
    | nil => exact absurd ha.symm hv
    | cons c' m' =>
      obtain ⟨a', v'⟩ := c'
      obtain ⟨-, hv', htail'⟩ := Memory.wfFrom_cons.mp hm'
      have ha' : Memory.read ((a, v) :: m) a' = v' := by simpa [Memory.read] using h a'
      have hle : a' ≤ a :=
        Memory.le_of_read_ne_zero (Memory.wfFrom_cons.mpr ⟨le_rfl, hv', htail'⟩) (ha.trans_ne hv)
      have hge : a ≤ a' :=
        Memory.le_of_read_ne_zero (Memory.wfFrom_cons.mpr ⟨le_rfl, hv, htail⟩) (ha'.trans_ne hv')
      obtain rfl : a = a' := le_antisymm hge hle
      obtain rfl : v' = v := by simpa [Memory.read] using ha
      rw [ih htail htail' fun k => by rw [Memory.read_tail htail, Memory.read_tail htail', h k]]

/-- Settles O25: the canonical form lists exactly the nonzero cells, in order. -/
theorem canonicalMemoriesThatReadAlikeAreEqual : Obligations.CanonicalMemoriesThatReadAlikeAreEqual :=
  fun _ _ _ hm hm' h => Memory.eq_of_wfFrom_of_read_eq hm hm' h

end Sys2Proof.Machine
end

section
/-! SUPPORT. Encoding (30_encoding.md): the decoder by its two maps, the fields of a masked word, and that the decoder
and the encoder agree; each obligation of the decoder follows its lemmas. -/

namespace Sys2Proof

variable {w : Word} {op f : BitVec 6} {rs rt rd : Reg} {imm : Imm} {i : Instr}

/-! ### The decoder by its maps (30_encoding.md R65) -/

theorem decode_of_opcode {make : Reg → Reg → Imm → Instr} (h : w.opcode = op) (h0 : op ≠ 0)
    (hm : primaryMap.lookup op = some make) : decode w = .ok (make w.rs w.rt w.imm) := by
  simp only [decode, h, if_neg h0, hm]

theorem decode_of_funct {make : Reg → Reg → Reg → Instr} (h : w.opcode = 0) (hf : w.funct = f)
    (hm : functMap.lookup f = some make) : decode w = .ok (make w.rs w.rt w.rd) := by
  simp only [decode, if_pos h, hf, hm]

theorem decode_of_lookup_opcode_none (h0 : w.opcode ≠ 0) (hm : primaryMap.lookup w.opcode = none) :
    decode w = .error (.badOpcode w.opcode) := by
  simp only [decode, if_neg h0, hm]

theorem decode_of_lookup_funct_none (h : w.opcode = 0) (hm : functMap.lookup w.funct = none) :
    decode w = .error (.badFunct w.funct) := by
  simp only [decode, if_pos h, hm]

theorem mem_of_lookup_eq_some {α β : Type} [BEq α] [LawfulBEq α] {l : List (α × β)} {k : α} {b : β}
    (h : l.lookup k = some b) : (k, b) ∈ l := by
  obtain ⟨l₁, l₂, rfl, -⟩ := List.lookup_eq_some_iff.mp h
  simp

theorem lookup_eq_none_of_not_mem {α β : Type} [BEq α] [LawfulBEq α] {l : List (α × β)} {k : α}
    (h : k ∉ l.map Prod.fst) : l.lookup k = none :=
  List.lookup_eq_none_iff.mpr fun _ hp => bne_iff_ne.mpr fun hk => h (hk ▸ List.mem_map_of_mem hp)

/-- A legal word's instruction is the one an entry of a map makes of the word's fields. -/
theorem decode_eq_ok (h : decode w = .ok i) :
    (w.opcode = 0 ∧ ∃ e ∈ functMap, w.funct = e.1 ∧ i = e.2 w.rs w.rt w.rd) ∨
      ∃ e ∈ primaryMap, w.opcode = e.1 ∧ i = e.2 w.rs w.rt w.imm := by
  by_cases h0 : w.opcode = 0
  · cases hm : functMap.lookup w.funct with
    | some make =>
      rw [decode_of_funct h0 rfl hm] at h
      exact .inl ⟨h0, _, mem_of_lookup_eq_some hm, rfl, (Except.ok.inj h).symm⟩
    | none => simp [decode_of_lookup_funct_none h0 hm] at h
  · cases hm : primaryMap.lookup w.opcode with
    | some make =>
      rw [decode_of_opcode rfl h0 hm] at h
      exact .inr ⟨_, mem_of_lookup_eq_some hm, rfl, (Except.ok.inj h).symm⟩
    | none => simp [decode_of_lookup_opcode_none h0 hm] at h

/-- Whether a word of opcode 0 is legal depends on its function code alone. -/
theorem legal_iff_of_opcode_zero (h : w.opcode = 0) :
    (∃ i, decode w = .ok i) ↔ (functMap.lookup w.funct).isSome = true := by
  cases hm : functMap.lookup w.funct with
  | some make => simp [decode_of_funct h rfl hm]
  | none => simp [decode_of_lookup_funct_none h hm]

/-- Settles O3: each listed opcode is looked up, and an unlisted one is found nowhere. -/
theorem decodeFollowsThePrimaryMap : Obligations.DecodeFollowsThePrimaryMap := by
  intro w
  have hzero (hw : w.opcode = 0) (v : Word) (hv : v.opcode = 0) (hf : v.funct = w.funct) :
      (∃ i, decode v = .ok i) ↔ ∃ i, decode w = .ok i := by
    rw [legal_iff_of_opcode_zero hv, legal_iff_of_opcode_zero hw, hf]
  refine ⟨?_, ?_, ?_, ?_, ?_, ?_, ?_, ?_, ?_, ?_, ?_, ?_, hzero, fun h => ?unlisted⟩
  case unlisted =>
    obtain ⟨h0, hrest⟩ := not_or.mp (List.mem_cons.not.mp h)
    exact ⟨_, decode_of_lookup_opcode_none h0 (lookup_eq_none_of_not_mem hrest)⟩
  all_goals exact fun h => decode_of_opcode h (by decide) rfl

/-- Settles O4: each listed function code is looked up, and an unlisted one is found nowhere. -/
theorem decodeFollowsTheFunctionMap : Obligations.DecodeFollowsTheFunctionMap := fun _ h0 =>
  ⟨fun h => decode_of_funct h0 h rfl, fun h => decode_of_funct h0 h rfl, fun h => decode_of_funct h0 h rfl,
    fun h => decode_of_funct h0 h rfl, fun h => decode_of_funct h0 h rfl,
    fun h => ⟨_, decode_of_lookup_funct_none h0 (lookup_eq_none_of_not_mem h)⟩⟩

/-- Settles O5: the decoder evaluates each word. -/
theorem specWordsDecodeAsListed : Obligations.SpecWordsDecodeAsListed := by
  unfold Obligations.SpecWordsDecodeAsListed
  decide

/-! ### Decoding an encoded instruction (30_encoding.md R73) -/

theorem decode_packI {make : Reg → Reg → Imm → Instr} (h0 : op ≠ 0) (hm : primaryMap.lookup op = some make) :
    decode (packI op rs rt imm) = .ok (make rs rt imm) := by
  rw [decode_of_opcode (opcode_packI ..) h0 hm, rs_packI, rt_packI, imm_packI]

theorem decode_packR {make : Reg → Reg → Reg → Instr} (hm : functMap.lookup f = some make) :
    decode (packR rs rt rd f) = .ok (make rs rt rd) := by
  rw [decode_of_funct (opcode_packR ..) (funct_packR ..) hm, rs_packR, rt_packR, rd_packR]

/-- Settles O1: every encoding is a packed word of its format, whose code the map of that format lists. -/
theorem decodeOfEncodeIsIdentity : Obligations.DecodeOfEncodeIsIdentity := by
  intro i
  cases i
  case lui => exact decode_packI (make := fun _ rt imm => .lui rt imm) (by decide) rfl
  case jr => exact decode_packR (make := fun rs _ _ => .jr rs) rfl
  case syscall => exact decode_packR (make := fun _ _ _ => .syscall) rfl
  case add | mul | slt => exact decode_packR rfl
  all_goals exact decode_packI (by decide) rfl

/-! ### The fields of a masked word (30_encoding.md R61, R64) -/

/-- The bits between rd and the function code, which no instruction reads. -/
def Word.shamt (w : Word) : BitVec 5 := w.extractLsb' 6 5

theorem shamt_packR : (packR rs rt rd f).shamt = 0 := by
  apply BitVec.eq_of_getLsbD_eq
  intro k hk
  simp only [packR, Word.shamt, BitVec.getLsbD_append, BitVec.getLsbD_extractLsb']
  interval_cases k <;> simp

/-- A word is its I-format fields. -/
theorem Word.eq_iff_fieldsI {v : Word} :
    w = v ↔ w.opcode = v.opcode ∧ w.rs = v.rs ∧ w.rt = v.rt ∧ w.imm = v.imm := by
  refine ⟨fun h => by simp [h], fun ⟨hop, hrs, hrt, himm⟩ => ?_⟩
  have hjoin (u : Word) : packI u.opcode u.rs u.rt u.imm = u := by
    rw [packI, Word.opcode, Word.rs, Word.rt, Word.imm,
      BitVec.extractLsb'_append_extractLsb'_eq_extractLsb' (start₂ := 26) (start₁ := 21) rfl,
      BitVec.extractLsb'_append_extractLsb'_eq_extractLsb' (start₂ := 21) (start₁ := 16) rfl,
      BitVec.extractLsb'_append_extractLsb'_eq_extractLsb' (start₂ := 16) (start₁ := 0) rfl, BitVec.extractLsb'_eq_self]
  rw [← hjoin w, ← hjoin v, hop, hrs, hrt, himm]

/-- A word is its R-format fields. -/
theorem Word.eq_iff_fieldsR {v : Word} : w = v ↔ w.opcode = v.opcode ∧ w.rs = v.rs ∧ w.rt = v.rt ∧ w.rd = v.rd ∧
    w.shamt = v.shamt ∧ w.funct = v.funct := by
  refine ⟨fun h => by simp [h], fun ⟨hop, hrs, hrt, hrd, hsh, hf⟩ => ?_⟩
  have himm (u : Word) : u.rd ++ u.shamt ++ u.funct = u.imm := by
    rw [Word.rd, Word.shamt, Word.funct, Word.imm,
      BitVec.extractLsb'_append_extractLsb'_eq_extractLsb' (start₂ := 11) (start₁ := 6) rfl,
      BitVec.extractLsb'_append_extractLsb'_eq_extractLsb' (start₂ := 6) (start₁ := 0) rfl]
  exact Word.eq_iff_fieldsI.mpr ⟨hop, hrs, hrt, by rw [← himm w, ← himm v, hrd, hsh, hf]⟩

theorem masked_eq_packI {m : Word} : w &&& m = packI op rs rt imm ↔
    w.opcode &&& m.opcode = op ∧ w.rs &&& m.rs = rs ∧ w.rt &&& m.rt = rt ∧ w.imm &&& m.imm = imm := by
  rw [Word.eq_iff_fieldsI, opcode_packI, rs_packI, rt_packI, imm_packI]
  simp only [Word.opcode, Word.rs, Word.rt, Word.imm, BitVec.extractLsb'_and]

theorem masked_eq_packR {m : Word} : w &&& m = packR rs rt rd f ↔ w.opcode &&& m.opcode = 0 ∧ w.rs &&& m.rs = rs ∧
    w.rt &&& m.rt = rt ∧ w.rd &&& m.rd = rd ∧ w.shamt &&& m.shamt = 0 ∧ w.funct &&& m.funct = f := by
  rw [Word.eq_iff_fieldsR, opcode_packR, rs_packR, rt_packR, rd_packR, shamt_packR, funct_packR]
  simp only [Word.opcode, Word.rs, Word.rt, Word.rd, Word.shamt, Word.funct, BitVec.extractLsb'_and]

/-- LUI's mask leaves out rs. -/
theorem examined_eq_packI_lui : w &&& 0xFC1FFFFF = packI op 0 rt imm ↔ w.opcode = op ∧ w.rt = rt ∧ w.imm = imm := by
  rw [masked_eq_packI]
  change w.opcode &&& .allOnes 6 = op ∧ w.rs &&& 0#5 = 0#5 ∧ w.rt &&& .allOnes 5 = rt ∧
    w.imm &&& .allOnes 16 = imm ↔ _
  simp only [BitVec.and_allOnes, BitVec.and_zero, true_and]

/-- The mask of ADD, MUL and SLT leaves out shamt. -/
theorem examined_eq_packR_reg3 : w &&& 0xFFFFF83F = packR rs rt rd f ↔
    w.opcode = 0 ∧ w.rs = rs ∧ w.rt = rt ∧ w.rd = rd ∧ w.funct = f := by
  rw [masked_eq_packR]
  change w.opcode &&& .allOnes 6 = 0 ∧ w.rs &&& .allOnes 5 = rs ∧ w.rt &&& .allOnes 5 = rt ∧
    w.rd &&& .allOnes 5 = rd ∧ w.shamt &&& 0#5 = 0#5 ∧ w.funct &&& .allOnes 6 = f ↔ _
  simp only [BitVec.and_allOnes, BitVec.and_zero, true_and]

/-- JR's mask leaves out rt, rd and shamt. -/
theorem examined_eq_packR_jr : w &&& 0xFFE0003F = packR rs 0 0 f ↔ w.opcode = 0 ∧ w.rs = rs ∧ w.funct = f := by
  rw [masked_eq_packR]
  change w.opcode &&& .allOnes 6 = 0 ∧ w.rs &&& .allOnes 5 = rs ∧ w.rt &&& 0#5 = 0#5 ∧ w.rd &&& 0#5 = 0#5 ∧
    w.shamt &&& 0#5 = 0#5 ∧ w.funct &&& .allOnes 6 = f ↔ _
  simp only [BitVec.and_allOnes, BitVec.and_zero, true_and]

/-- SYSCALL's mask leaves out every field but the opcode and the function code. -/
theorem examined_eq_packR_syscall : w &&& 0xFC00003F = packR 0 0 0 f ↔ w.opcode = 0 ∧ w.funct = f := by
  rw [masked_eq_packR]
  change w.opcode &&& .allOnes 6 = 0 ∧ w.rs &&& 0#5 = 0#5 ∧ w.rt &&& 0#5 = 0#5 ∧ w.rd &&& 0#5 = 0#5 ∧
    w.shamt &&& 0#5 = 0#5 ∧ w.funct &&& .allOnes 6 = f ↔ _
  simp only [BitVec.and_allOnes, BitVec.and_zero, true_and]

/-- The I-format instructions but LUI examine the whole word. -/
theorem examined_eq_packI : w &&& 0xFFFFFFFF = packI op rs rt imm ↔
    w.opcode = op ∧ w.rs = rs ∧ w.rt = rt ∧ w.imm = imm := by
  rw [masked_eq_packI]
  change w.opcode &&& .allOnes 6 = op ∧ w.rs &&& .allOnes 5 = rs ∧ w.rt &&& .allOnes 5 = rt ∧
    w.imm &&& .allOnes 16 = imm ↔ _
  simp only [BitVec.and_allOnes]

/-! ### Decoding and the examined bits (30_encoding.md R64) -/

/-- Each entry of the primary map makes the instruction whose encoding the word shows. -/
theorem examined_of_mem_primaryMap : ∀ e ∈ primaryMap, w.opcode = e.1 →
    w &&& examinedBits (e.2 w.rs w.rt w.imm) = encode (e.2 w.rs w.rt w.imm) := by
  simp only [primaryMap, List.forall_mem_cons]
  have hall {op : BitVec 6} (h : w.opcode = op) : w &&& 0xFFFFFFFF = packI op w.rs w.rt w.imm :=
    examined_eq_packI.mpr ⟨h, rfl, rfl, rfl⟩
  exact ⟨hall, hall, hall, hall, hall, fun h => examined_eq_packI_lui.mpr ⟨h, rfl, rfl⟩, hall, hall, hall, hall, hall,
    hall, by simp⟩

/-- Each entry of the function-code map makes the instruction whose encoding the word shows. -/
theorem examined_of_mem_functMap (h0 : w.opcode = 0) : ∀ e ∈ functMap, w.funct = e.1 →
    w &&& examinedBits (e.2 w.rs w.rt w.rd) = encode (e.2 w.rs w.rt w.rd) := by
  simp only [functMap, List.forall_mem_cons]
  have hreg3 {f : BitVec 6} (h : w.funct = f) : w &&& 0xFFFFF83F = packR w.rs w.rt w.rd f :=
    examined_eq_packR_reg3.mpr ⟨h0, rfl, rfl, rfl, h⟩
  exact ⟨hreg3, fun h => examined_eq_packR_jr.mpr ⟨h0, rfl, h⟩, fun h => examined_eq_packR_syscall.mpr ⟨h0, h⟩, hreg3,
    hreg3, by simp⟩

theorem decode_of_examined (h : w &&& examinedBits i = encode i) : decode w = .ok i := by
  cases i
  case lui =>
    obtain ⟨hop, rfl, rfl⟩ := examined_eq_packI_lui.mp h
    exact decode_of_opcode hop (by decide) rfl
  case jr =>
    obtain ⟨h0, rfl, hf⟩ := examined_eq_packR_jr.mp h
    exact decode_of_funct h0 hf rfl
  case syscall =>
    obtain ⟨h0, hf⟩ := examined_eq_packR_syscall.mp h
    exact decode_of_funct h0 hf rfl
  case add | mul | slt =>
    obtain ⟨h0, rfl, rfl, rfl, hf⟩ := examined_eq_packR_reg3.mp h
    exact decode_of_funct h0 hf rfl
  all_goals
    obtain ⟨hop, rfl, rfl, rfl⟩ := examined_eq_packI.mp h
    exact decode_of_opcode hop (by decide) rfl

/-- Settles O2: a legal word shows its map entry's encoding, and a word that shows an encoding has its fields. -/
theorem decodesExactlyWhenExaminedBitsAgree : Obligations.DecodesExactlyWhenExaminedBitsAgree := by
  refine fun w i => ⟨fun h => ?_, decode_of_examined⟩
  obtain ⟨h0, e, he, hf, rfl⟩ | ⟨e, he, hop, rfl⟩ := decode_eq_ok h
  · exact examined_of_mem_functMap h0 e he hf
  · exact examined_of_mem_primaryMap e he hop

end Sys2Proof
end

section
/-! SUPPORT. The assembler (30_encoding.md R71 to R73): how a line divides, which numbers its texts name, and the word
of each form; each obligation follows its lemmas. -/

namespace Sys2Proof.Machine

/-! ### The division of a line (log entry 16) -/

/-- A word's characters are gathered in lower case, whatever follows them. -/
theorem tokens_append {m : List Char} (hm : ∀ c ∈ m, c ∉ [' ', '\t', ',', '(', ')']) (acc rest : List Char) :
    tokens acc (m ++ rest) = tokens (acc ++ m.map Char.toLower) rest := by
  induction m generalizing acc with
  | nil => simp
  | cons c m ih =>
    obtain ⟨hc, hm⟩ := List.forall_mem_cons.mp hm
    simp only [List.mem_cons, List.not_mem_nil, or_false, not_or] at hc
    obtain ⟨hspace, htab, hcomma, hopen, hclose⟩ := hc
    simp [tokens, hspace, htab, hcomma, hopen, hclose, ih hm]

/-- Capitals reach no character but letters. -/
theorem toUpper_eq_iff {c d : Char} (hd : d.isAlpha = false) : c.toUpper = d ↔ c = d := by
  have hfix {e : Char} (he : e.isAlpha = false) : e.toUpper = e :=
    Char.toUpper_eq_of_not_isLower (by simp_all [Char.isAlpha])
  refine ⟨?_, fun h => h ▸ hfix (h ▸ hd)⟩
  rintro rfl
  exact (hfix (by simpa using hd)).symm

theorem tokens_map_toUpper (line acc : List Char) : tokens acc (line.map Char.toUpper) = tokens acc line := by
  induction line generalizing acc with
  | nil => rfl
  | cons c line ih =>
    have hspace : c.toUpper = ' ' ↔ c = ' ' := toUpper_eq_iff rfl
    have htab : c.toUpper = '\t' ↔ c = '\t' := toUpper_eq_iff rfl
    have hcomma : c.toUpper = ',' ↔ c = ',' := toUpper_eq_iff rfl
    have hopen : c.toUpper = '(' ↔ c = '(' := toUpper_eq_iff rfl
    have hclose : c.toUpper = ')' ↔ c = ')' := toUpper_eq_iff rfl
    simp only [List.map_cons, tokens, hspace, htab, hcomma, hopen, hclose, Char.toLower_toUpper_eq_toLower, ih]

/-- Settles O55: the word is gathered whole, and then its delimiter closes it. -/
theorem assemblerLinesDivideIntoLowerCaseWords : Obligations.AssemblerLinesDivideIntoLowerCaseWords := by
  refine ⟨fun m rest hne hm => ?_, fun rest => rfl, fun line => tokens_map_toUpper line []⟩
  have hclose (ts : List Token) : closeWord (m.map Char.toLower) ts = .word (m.map Char.toLower) :: ts :=
    if_neg (by simpa using hne)
  have hend : tokens [] m = closeWord (m.map Char.toLower) [] := by simpa [tokens] using tokens_append hm [] []
  simp [hend, tokens_append hm, tokens, hclose]

/-! ### Numbers (30_encoding.md R71) -/

theorem digitsValue_append_digit {base v d : Nat} {cs : List Char} {c : Char} (hv : digitsValue base cs = some v)
    (hd : digitValue base c = some d) : digitsValue base (cs ++ [c]) = some (v * base + d) := by
  have hne : cs ≠ [] := by
    rintro rfl
    simp [digitsValue] at hv
  rw [digitsValue, if_neg hne] at hv
  simp [digitsValue, List.foldl_append, hv, hd]

theorem digitsValue_singleton {base d : Nat} {c : Char} (hd : digitValue base c = some d) :
    digitsValue base [c] = some d := by
  simp [digitsValue, hd]

/-- The character of a decimal digit. -/
def decimalChar (d : Nat) : Char := Char.ofNat (digitByte d).toNat

theorem digitValue_decimalChar : ∀ d < 10, digitValue 10 (decimalChar d) = some d := by decide

theorem digitValue_hexDigit : ∀ d < 16, digitValue 16 (hexDigit d) = some d := by decide

theorem asciiText_decDigits_succ (fuel n : Nat) : asciiText (decDigits (fuel + 1) n) =
    if n < 10 then [decimalChar n] else asciiText (decDigits fuel (n / 10)) ++ [decimalChar (n % 10)] := by
  rw [decDigits]
  split
  · rfl
  · exact List.map_append

/-- The digits of a number read back as the number. -/
theorem digitsValue_decDigits {fuel n : Nat} (h : n < 10 ^ (fuel + 1)) :
    digitsValue 10 (asciiText (decDigits (fuel + 1) n)) = some n := by
  induction fuel generalizing n with
  | zero =>
    have hn : n < 10 := by simpa using h
    rw [asciiText_decDigits_succ, if_pos hn]
    exact digitsValue_singleton (digitValue_decimalChar n hn)
  | succ fuel ih =>
    rw [asciiText_decDigits_succ]
    split
    next hn => exact digitsValue_singleton (digitValue_decimalChar n hn)
    next hn =>
      have hhead := ih (n := n / 10) (by rw [pow_succ] at h; omega)
      have hlast := digitValue_decimalChar (n % 10) (Nat.mod_lt _ (by decide))
      rw [digitsValue_append_digit hhead hlast, Nat.div_add_mod']

/-- Decimal digits alone stand in decimal text: neither a `-` nor an `x`. -/
theorem not_mem_asciiText_decDigits {c : Char} (hc : ∀ d < 10, c ≠ decimalChar d) (fuel n : Nat) :
    c ∉ asciiText (decDigits fuel n) := by
  induction fuel generalizing n with
  | zero => exact List.not_mem_nil
  | succ fuel ih =>
    rw [asciiText_decDigits_succ]
    split
    next hn => simpa using hc n hn
    next hn => simpa using ⟨ih (n / 10), hc (n % 10) (Nat.mod_lt _ (by decide))⟩

theorem unsignedNumber_of_not_mem {cs : List Char} (h : 'x' ∉ cs) : unsignedNumber cs = digitsValue 10 cs := by
  unfold unsignedNumber
  split
  · simp at h
  · rfl

theorem immediateOperand_of_not_mem {cs : List Char} (h : '-' ∉ cs) :
    immediateOperand cs = (unsignedNumber cs).map fun v => (v : Int) := by
  unfold immediateOperand
  split
  · simp at h
  · rfl

theorem unsignedNumber_decDigits {fuel n : Nat} (h : n < 10 ^ (fuel + 1)) :
    unsignedNumber (asciiText (decDigits (fuel + 1) n)) = some n := by
  have hx : 'x' ∉ asciiText (decDigits (fuel + 1) n) := not_mem_asciiText_decDigits (by decide) _ _
  rw [unsignedNumber_of_not_mem hx, digitsValue_decDigits h]

theorem unsignedNumber_hexText (v : Imm) : unsignedNumber ('0' :: 'x' :: hexText v) = some v.toNat := by
  have hdigit (n : Nat) : digitValue 16 (hexDigit (n % 16)) = some (n % 16) :=
    digitValue_hexDigit _ (Nat.mod_lt _ (by decide))
  have htwo := digitsValue_append_digit (digitsValue_singleton (hdigit (v.toNat / 4096))) (hdigit (v.toNat / 256))
  have hread := digitsValue_append_digit (digitsValue_append_digit htwo (hdigit (v.toNat / 16))) (hdigit v.toNat)
  refine hread.trans (congrArg some ?_)
  have := v.isLt
  omega

theorem asciiText_decText (v : Word) : asciiText (decText v) =
    (if v.toInt < 0 then ['-'] else []) ++ asciiText (decDigits 10 v.toInt.natAbs) := by
  rw [decText]
  split <;> rfl

/-- Settles O54: the digits read back, and no digit is the `-` or the `x` of another form. -/
theorem assemblerReadsNumbersAsWritten : Obligations.AssemblerReadsNumbersAsWritten := by
  have hlt (v : Word) : v.toInt.natAbs < 10 ^ 10 := by
    have hlow := v.le_toInt
    have hhigh := v.toInt_lt
    omega
  refine ⟨fun v => ?_, fun v hv => ?_, fun v => ?_, fun v => ?_⟩
  · have hminus : '-' ∉ asciiText (decDigits 10 v.toInt.natAbs) := not_mem_asciiText_decDigits (by decide) _ _
    rw [asciiText_decText]
    split
    next hneg => simp [immediateOperand, unsignedNumber_decDigits (hlt v), abs_of_neg hneg]
    next hpos => simp [immediateOperand_of_not_mem hminus, unsignedNumber_decDigits (hlt v), not_lt.mp hpos]
  · have habs : v.toInt.natAbs = v.toNat := by
      have hcond := v.toInt_eq_toNat_cond
      have := v.isLt
      split at hcond <;> omega
    simpa [registerOperand, asciiText_decText, hv.not_gt, habs] using digitsValue_decDigits (hlt v)
  · simp [immediateOperand, unsignedNumber_hexText]
  · simp [immediateOperand, unsignedNumber_hexText]

/-! ### The forms of a line (30_encoding.md R71, R72) -/

/-- Every form asks for a mnemonic of its own. -/
theorem parseTokens_eq_none {m : List Char} {rest : List Token} (hsyscall : m ≠ "syscall".toList)
    (hjr : m ≠ "jr".toList) (hlui : m ≠ "lui".toList) (hreg3 : reg3Mnemonics.lookup m = none)
    (himm3 : imm3Mnemonics.lookup m = none) (hbranch : branchMnemonics.lookup m = none)
    (hmemory : memoryMnemonics.lookup m = none) : parseTokens (.word m :: rest) = none := by
  generalize hline : Token.word m :: rest = line
  unfold parseTokens
  split <;> cases hline
  · exact if_neg hsyscall
  · exact if_neg hjr
  · exact if_neg hlui
  · simp only [parseThree, hreg3, himm3, hbranch]
  · simp only [hmemory]
  · rfl

/-- Settles O56: the mnemonics of the forms are among the 17. -/
theorem onlyTheSeventeenMnemonicsAssemble : Obligations.OnlyTheSeventeenMnemonicsAssemble := by
  intro m rest hm
  have hnone : parseTokens (.word m :: rest) = none := by
    apply parseTokens_eq_none
    case hsyscall | hjr | hlui =>
      rintro rfl
      exact hm (by decide)
    all_goals exact lookup_eq_none_of_not_mem fun h => hm (List.subset_def.mp (by decide) h)
  rw [assembleTokens, hnone, Option.bind_none]

/-! ### The word of a line (30_encoding.md R73) -/

theorem toNat_append_eq_add {m n : Nat} (x : BitVec m) (y : BitVec n) :
    (x ++ y).toNat = x.toNat * 2 ^ n + y.toNat := by
  rw [BitVec.toNat_append, ← Nat.shiftLeft_add_eq_or_of_lt y.isLt, Nat.shiftLeft_eq]

theorem toNat_packI (op : BitVec 6) (rs rt : Reg) (imm : Imm) :
    (packI op rs rt imm).toNat = op.toNat * 2 ^ 26 + rs.toNat * 2 ^ 21 + rt.toNat * 2 ^ 16 + imm.toNat := by
  simp only [packI, toNat_append_eq_add]
  ring

theorem toNat_packR (rs rt rd : Reg) (f : BitVec 6) :
    (packR rs rt rd f).toNat = rs.toNat * 2 ^ 21 + rt.toNat * 2 ^ 16 + rd.toNat * 2 ^ 11 + f.toNat := by
  simp only [packR, toNat_append_eq_add, BitVec.toNat_zero, zero_mul, zero_add]
  ring

/-- A line that parses assembles by its operands' ranges, and decodes by the round trip. -/
theorem assemblesAs_of_parse {line : List Token} {asm : Asm} {inRange : Prop} {word : Nat}
    (hparse : parseTokens line = some asm) (hrange : asm.wellFormed = true ↔ inRange)
    (hword : inRange → (encode asm.instr).toNat = word) : AssemblesAs line inRange word asm.instr := by
  refine ⟨fun hin => ⟨encode asm.instr, ?_, hword hin, decodeOfEncodeIsIdentity _⟩, fun hout => ?_⟩
  · simp [assembleTokens, hparse, Asm.assemble, hrange.mpr hin]
  · simp [assembleTokens, hparse, Asm.assemble, mt hrange.mp hout]

theorem toNat_ofNat_of_le {x : Nat} (hx : x ≤ 31) : (BitVec.ofNat 5 x).toNat = x :=
  Nat.mod_eq_of_lt (Nat.lt_succ_of_le hx)

theorem toNat_packI_of_le {op : BitVec 6} {rs rt : Nat} {v : Int} (hrs : rs ≤ 31) (hrt : rt ≤ 31) :
    (packI op (.ofNat 5 rs) (.ofNat 5 rt) (.ofInt 16 v)).toNat =
      op.toNat * 2 ^ 26 + rs * 2 ^ 21 + rt * 2 ^ 16 + (v % 65536).toNat := by
  rw [toNat_packI, toNat_ofNat_of_le hrs, toNat_ofNat_of_le hrt, BitVec.toNat_ofInt]
  rfl

@[simp] theorem regInRange_iff {x : Nat} : regInRange x = true ↔ x ≤ 31 := by
  simp [regInRange, Nat.lt_succ_iff]

@[simp] theorem signedInRange_iff {v : Int} : signedInRange v = true ↔ -32768 ≤ v ∧ v ≤ 32767 := by
  simp [signedInRange]

@[simp] theorem unsignedInRange_iff {v : Int} : unsignedInRange v = true ↔ 0 ≤ v ∧ v ≤ 65535 := by
  simp [unsignedInRange]

section Forms

variable {m : String} {a b c imm : List Char} {x y z : Nat} {v : Int}

/-- `MNEM $rd, $rs, $rt`. -/
theorem assemblesAs_reg3 {make : Reg → Reg → Reg → Instr} (f : BitVec 6)
    (hm : reg3Mnemonics.lookup m.toList = some make) (hmake : ∀ rs rt rd, encode (make rs rt rd) = packR rs rt rd f)
    (ha : registerOperand a = some x) (hb : registerOperand b = some y) (hc : registerOperand c = some z) :
    AssemblesAs (lineOfThree m a b c) (x ≤ 31 ∧ y ≤ 31 ∧ z ≤ 31)
      (y * 2 ^ 21 + z * 2 ^ 16 + x * 2 ^ 11 + f.toNat) (make (.ofNat 5 y) (.ofNat 5 z) (.ofNat 5 x)) := by
  refine assemblesAs_of_parse (asm := .reg3 make x y z) ?_ ?_ ?_
  · simp [lineOfThree, parseTokens, parseThree, hm, ha, hb, hc]
  · simp [Asm.wellFormed, and_assoc]
  · rintro ⟨hx, hy, hz⟩
    rw [Asm.instr, hmake, toNat_packR, toNat_ofNat_of_le hx, toNat_ofNat_of_le hy, toNat_ofNat_of_le hz]

/-- `JR $rs`. -/
theorem assemblesAs_jr (ha : registerOperand a = some x) :
    AssemblesAs [.word "jr".toList, .word a] (x ≤ 31) (x * 2 ^ 21 + 0x08) (.jr (.ofNat 5 x)) := by
  refine assemblesAs_of_parse (asm := .jr x) ?_ regInRange_iff fun hx => ?_
  · simp [parseTokens, ha]
  · rw [Asm.instr, encode, toNat_packR, toNat_ofNat_of_le hx]
    simp

/-- `SYSCALL`. -/
theorem assemblesAs_syscall : AssemblesAs [.word "syscall".toList] True 0x0C .syscall :=
  assemblesAs_of_parse (asm := .syscall) rfl (iff_of_true rfl trivial) fun _ => rfl

/-- `MNEM $rt, $rs, imm` with a signed immediate. -/
theorem assemblesAs_imm3_signed {make : Reg → Reg → Imm → Instr} (op : BitVec 6)
    (hreg3 : reg3Mnemonics.lookup m.toList = none) (hm : imm3Mnemonics.lookup m.toList = some (make, true))
    (hmake : ∀ rs rt imm, encode (make rs rt imm) = packI op rs rt imm) (ha : registerOperand a = some x)
    (hb : registerOperand b = some y) (himm : immediateOperand imm = some v) :
    AssemblesAs (lineOfThree m a b imm) (x ≤ 31 ∧ y ≤ 31 ∧ -32768 ≤ v ∧ v ≤ 32767)
      (op.toNat * 2 ^ 26 + y * 2 ^ 21 + x * 2 ^ 16 + (v % 65536).toNat)
      (make (.ofNat 5 y) (.ofNat 5 x) (.ofInt 16 v)) := by
  refine assemblesAs_of_parse (asm := .imm3 make true x y v) ?_ ?_ ?_
  · simp [lineOfThree, parseTokens, parseThree, hreg3, hm, ha, hb, himm]
  · simp [Asm.wellFormed, and_assoc]
  · rintro ⟨hx, hy, -⟩
    rw [Asm.instr, hmake, toNat_packI_of_le hy hx]

/-- ORI: `MNEM $rt, $rs, imm` with an unsigned immediate. -/
theorem assemblesAs_ori (ha : registerOperand a = some x) (hb : registerOperand b = some y)
    (himm : immediateOperand imm = some v) :
    AssemblesAs (lineOfThree "ori" a b imm) (x ≤ 31 ∧ y ≤ 31 ∧ 0 ≤ v ∧ v ≤ 65535)
      (0x0D * 2 ^ 26 + y * 2 ^ 21 + x * 2 ^ 16 + v.toNat) (.ori (.ofNat 5 y) (.ofNat 5 x) (.ofInt 16 v)) := by
  refine assemblesAs_of_parse (asm := .imm3 .ori false x y v) ?_ ?_ ?_
  · have hreg3 : reg3Mnemonics.lookup "ori".toList = none := rfl
    have hm : imm3Mnemonics.lookup "ori".toList = some (.ori, false) := rfl
    simp only [lineOfThree, parseTokens, parseThree, hreg3, hm, ha, hb, himm]
    rfl
  · simp [Asm.wellFormed, and_assoc]
  · rintro ⟨hx, hy, hv⟩
    rw [Asm.instr, encode, toNat_packI_of_le hy hx, Int.emod_eq_of_lt hv.1 (by omega)]
    rfl

/-- `LUI $rt, imm`. -/
theorem assemblesAs_lui (ha : registerOperand a = some x) (himm : immediateOperand imm = some v) :
    AssemblesAs [.word "lui".toList, .word a, .comma, .word imm] (x ≤ 31 ∧ 0 ≤ v ∧ v ≤ 65535)
      (0x0F * 2 ^ 26 + x * 2 ^ 16 + v.toNat) (.lui (.ofNat 5 x) (.ofInt 16 v)) := by
  refine assemblesAs_of_parse (asm := .lui x v) ?_ ?_ ?_
  · simp [parseTokens, ha, himm]
  · simp [Asm.wellFormed]
  · rintro ⟨hx, hv⟩
    have hword := toNat_packI_of_le (op := 0x0F) (v := v) (Nat.zero_le 31) hx
    rw [Int.emod_eq_of_lt hv.1 (by omega)] at hword
    simpa [Asm.instr, encode] using hword

/-- `MNEM $rs, $rt, off`. -/
theorem assemblesAs_branch {make : Reg → Reg → Imm → Instr} (op : BitVec 6)
    (hreg3 : reg3Mnemonics.lookup m.toList = none) (himm3 : imm3Mnemonics.lookup m.toList = none)
    (hm : branchMnemonics.lookup m.toList = some make)
    (hmake : ∀ rs rt imm, encode (make rs rt imm) = packI op rs rt imm) (ha : registerOperand a = some x)
    (hb : registerOperand b = some y) (himm : immediateOperand imm = some v) :
    AssemblesAs (lineOfThree m a b imm) (x ≤ 31 ∧ y ≤ 31 ∧ -32768 ≤ v ∧ v ≤ 32767)
      (op.toNat * 2 ^ 26 + x * 2 ^ 21 + y * 2 ^ 16 + (v % 65536).toNat)
      (make (.ofNat 5 x) (.ofNat 5 y) (.ofInt 16 v)) := by
  refine assemblesAs_of_parse (asm := .branch make x y v) ?_ ?_ ?_
  · simp [lineOfThree, parseTokens, parseThree, hreg3, himm3, hm, ha, hb, himm]
  · simp [Asm.wellFormed, and_assoc]
  · rintro ⟨hx, hy, -⟩
    rw [Asm.instr, hmake, toNat_packI_of_le hx hy]

/-- `MNEM $rt, off($rs)`. -/
theorem assemblesAs_memory {make : Reg → Reg → Imm → Instr} (op : BitVec 6)
    (hm : memoryMnemonics.lookup m.toList = some make)
    (hmake : ∀ rs rt imm, encode (make rs rt imm) = packI op rs rt imm) (ha : registerOperand a = some x)
    (hb : registerOperand b = some y) (himm : immediateOperand imm = some v) :
    AssemblesAs (lineOfAddress m a imm b) (x ≤ 31 ∧ y ≤ 31 ∧ -32768 ≤ v ∧ v ≤ 32767)
      (op.toNat * 2 ^ 26 + y * 2 ^ 21 + x * 2 ^ 16 + (v % 65536).toNat)
      (make (.ofNat 5 y) (.ofNat 5 x) (.ofInt 16 v)) := by
  refine assemblesAs_of_parse (asm := .memory make x v y) ?_ ?_ ?_
  · simp [lineOfAddress, parseTokens, hm, ha, hb, himm]
  · simp [Asm.wellFormed, and_assoc]
  · rintro ⟨hx, hy, -⟩
    rw [Asm.instr, hmake, toNat_packI_of_le hy hx]

end Forms

/-- Settles O6: each mnemonic's line by the lemma of its form. -/
theorem assembledLinesDecodeToTheirInstruction : Obligations.AssembledLinesDecodeToTheirInstruction := by
  intro a b c imm x y z v ha hb hc himm
  exact ⟨assemblesAs_reg3 0x20 rfl (fun _ _ _ => rfl) ha hb hc, assemblesAs_reg3 0x02 rfl (fun _ _ _ => rfl) ha hb hc,
    assemblesAs_reg3 0x2A rfl (fun _ _ _ => rfl) ha hb hc, assemblesAs_jr ha, assemblesAs_syscall,
    assemblesAs_imm3_signed 0x08 rfl rfl (fun _ _ _ => rfl) ha hb himm,
    assemblesAs_imm3_signed 0x09 rfl rfl (fun _ _ _ => rfl) ha hb himm, assemblesAs_ori ha hb himm,
    assemblesAs_lui ha himm, assemblesAs_branch 0x04 rfl rfl rfl (fun _ _ _ => rfl) ha hb himm,
    assemblesAs_branch 0x05 rfl rfl rfl (fun _ _ _ => rfl) ha hb himm,
    assemblesAs_memory 0x20 rfl (fun _ _ _ => rfl) ha hb himm,
    assemblesAs_memory 0x21 rfl (fun _ _ _ => rfl) ha hb himm,
    assemblesAs_memory 0x23 rfl (fun _ _ _ => rfl) ha hb himm,
    assemblesAs_memory 0x28 rfl (fun _ _ _ => rfl) ha hb himm,
    assemblesAs_memory 0x29 rfl (fun _ _ _ => rfl) ha hb himm,
    assemblesAs_memory 0x2B rfl (fun _ _ _ => rfl) ha hb himm⟩

end Sys2Proof.Machine
end

section
/-! SUPPORT. The step (40_fetch_dispatch.md R80 to R87): the past-end check, the fetch and its trace record, the illegal
word, dispatch, and the advance of `pc`. -/

namespace Sys2Proof.Machine

variable {s t : State} {i : Instr}

/-! ### The stages of a step (R80, R82 to R85) -/

theorem State.hasNext_iff : s.hasNext = true ↔ s.pc.toNat < s.n.toNat := by simp [State.hasNext]

theorem State.hasNext_eq_false_iff : s.hasNext = false ↔ s.n.toNat ≤ s.pc.toNat := by simp [State.hasNext]

/-- A halted core takes no further step (10_state.md R28). -/
theorem step_of_halted {reason : HaltReason} (hs : s.status = .halted reason) : step s = .fault (.halted reason) := by
  simp [step, hs]

theorem step_of_past (hs : s.status = .running) (hn : s.hasNext = false) :
    step s = .next (s.halt (.pastEnd s.pc)) :=
  step_of_ended hs (fetchStage_of_past hn)

theorem step_of_illegal {e : DecodeError} (hs : s.status = .running) (hn : s.hasNext = true)
    (hd : decode s.fetched = .error e) :
    step s = .next ((s.record s.fetched).halt (.badInstruction s.fetched)) :=
  step_of_ended hs (fetchStage_of_illegal hn hd)

theorem step_of_legal (hs : s.status = .running) (hn : s.hasNext = true) (hd : decode s.fetched = .ok i) :
    step s = exec i (s.record s.fetched) :=
  step_of_ready hs (fetchStage_of_legal hn hd)

/-- Recording changes the trace alone. -/
theorem State.record_eq (s : State) (w : Word) :
    s.record w = { s with tr := if s.trace then s.tr ++ [⟨s.pc, w, s.n⟩] else s.tr } := by
  unfold State.record
  split <;> rfl

/-- Settles O7: past the check, the step of a legal word is dispatch after the trace record. -/
theorem stepExecutesTheFetchedInstruction : Obligations.StepExecutesTheFetchedInstruction :=
  fun _ _ hs hn hd => step_of_legal hs (State.hasNext_iff.mpr hn) hd

/-- Settles O9: the step of an illegal word is the trace record and the halt. -/
theorem illegalWordHaltsTheRun : Obligations.IllegalWordHaltsTheRun := fun s _ hs hn hd => by
  rw [step_of_illegal hs (State.hasNext_iff.mpr hn) hd, State.record_eq]
  rfl

/-! ### The past-end check (R80) -/

/-- No instruction ends the run with `PastEnd`: JR past the end has its own reason. -/
theorem Effect.status_ne_pastEnd (he : Effect s i t) (hs : s.status = .running) (p : Word) :
    t.status ≠ .halted (.pastEnd p) := by
  cases he with
  | wrote | jumped | stored | printed => simp [hs]
  | returned | exited | badService | leftMemory => simp

/-- A step that fetches does not end with `PastEnd`. -/
theorem StepEffect.status_ne_pastEnd (he : StepEffect s t) (hs : s.status = .running) (hn : s.hasNext = true)
    (p : Word) : t.status ≠ .halted (.pastEnd p) := by
  cases he with
  | pastEnd hpast => cases hn.symm.trans hpast
  | illegal e _ hd => simp
  | executed i t _ hd he => exact he.status_ne_pastEnd (by simpa using hs) p

/-- Settles O8: the check comes first and alone raises `PastEnd`; a booted core runs with `pc` at `ENTRY`. -/
theorem pastEndHaltsBeforeAnyFetch : Obligations.PastEndHaltsBeforeAnyFetch := by
  refine ⟨fun s reason hs t ht => ?halted, fun s hs hn => ?past, fun s t p hn ht => ?below, fun img trace hn => ?boot⟩
  case halted => cases (step_of_halted hs).symm.trans ht
  case past => exact ⟨_, step_of_past hs (State.hasNext_eq_false_iff.mpr hn), rfl, rfl⟩
  case below =>
    obtain ⟨hs, he⟩ := step_cases ht
    exact he.status_ne_pastEnd hs (State.hasNext_iff.mpr hn) p
  case boot => exact ⟨_, step_of_past (s := State.boot img trace) rfl (State.hasNext_eq_false_iff.mpr hn), rfl⟩

/-! ### The trace record (R83) -/

theorem StepEffect.tr_eq (he : StepEffect s t) :
    t.tr = if s.trace = true ∧ s.hasNext = true then s.tr ++ [⟨s.pc, s.fetched, s.n⟩] else s.tr := by
  cases he with
  | pastEnd hn => simp [hn]
  | illegal e hn hd => simp [hn]
  | executed i t hn hd he => simp [he.tr_eq, hn]

/-- A change of the state that no instruction observes, and that commutes with the trace record and keeps what the
stages before the instruction read, commutes with the step. -/
theorem Unobserved.step {f : State → State} (hf : Unobserved f) (hstatus : ∀ s, (f s).status = s.status)
    (himem : ∀ s, (f s).imem = s.imem) (hrecord : ∀ s w, (f s).record w = f (s.record w)) (s : State) :
    step (f s) = mapNext f (step s) := by
  have hnext : (f s).hasNext = s.hasNext := by simp [State.hasNext, hf.pc, hf.n]
  have hword : (f s).fetched = s.fetched := by simp [State.fetched, hf.pc, himem]
  cases hs : s.status with
  | halted reason => rw [step_of_halted hs, step_of_halted ((hstatus s).trans hs), mapNext]
  | running =>
    have hs' : (f s).status = .running := (hstatus s).trans hs
    cases hn : s.hasNext with
    | false => rw [step_of_past hs hn, step_of_past hs' (hnext.trans hn), hf.halt, hf.pc, mapNext]
    | true =>
      have hn' : (f s).hasNext = true := hnext.trans hn
      cases hd : decode s.fetched with
      | error e =>
        rw [step_of_illegal hs hn hd, step_of_illegal hs' hn' (hword ▸ hd), hword, hrecord, hf.halt, mapNext]
      | ok i => rw [step_of_legal hs hn hd, step_of_legal hs' hn' (hword ▸ hd), hword, hrecord, hf.exec]

/-- The state with the trace flag off and these trace records. -/
def State.untraced (r : List TraceRecord) (s : State) : State := { s with trace := false, tr := r }

theorem unobserved_untraced (r : List TraceRecord) : Unobserved (State.untraced r) where
  regs _ := rfl
  pc _ := rfl
  dmem _ := rfl
  n _ := rfl
  memsize _ := rfl
  writeReg s d v := by unfold State.writeReg; split <;> rfl
  memWrite _ _ _ _ := rfl
  fallThrough _ := rfl
  redirect _ _ := rfl
  halt _ _ := rfl
  emit _ _ := rfl

/-- With the flag off nothing is recorded, so a record made before the flag and the trace are replaced is lost. -/
theorem record_untraced (r : List TraceRecord) (s : State) (w : Word) :
    (s.untraced r).record w = (s.record w).untraced r := by
  rw [State.record_eq, State.record_eq]
  rfl

/-- The step with the trace off is the step, but for the flag and the trace. -/
theorem step_untraced (r : List TraceRecord) (s : State) :
    step (s.untraced r) = mapNext (State.untraced r) (step s) :=
  (unobserved_untraced r).step (fun _ => rfl) (fun _ => rfl) (record_untraced r) s

/-- Settles O10: each effect of a step says whether it recorded its fetch, and no step observes the trace. -/
theorem traceRecordsEveryFetchAndNothingElse : Obligations.TraceRecordsEveryFetchAndNothingElse := fun s t h => by
  constructor
  · simpa only [State.hasNext_iff, State.fetched] using (step_cases h).2.tr_eq
  · exact (step_untraced s.tr s).trans (congrArg _ h)

/-! ### The advance of `pc` (R86) -/

/-- An instruction that leaves the core running and may not redirect fell through. -/
theorem Effect.pc_eq_of_running (he : Effect s i t) (ht : t.status = .running) (hi : i.mayRedirect = false) :
    t.pc = s.pc + 1 := by
  cases he with
  | wrote | stored | printed => simp
  | jumped target hr => cases hi.symm.trans hr
  | returned | exited | badService | leftMemory => simp at ht

/-- Settles O19: every effect falls through, redirects or ends the run. -/
theorem onlyBranchesAndJrRedirectThePc : Obligations.OnlyBranchesAndJrRedirectThePc :=
  fun _ _ _ _ h ht hi => (exec_cases h).pc_eq_of_running ht hi

end Sys2Proof.Machine
end

section
/-! SUPPORT. The immediate ALU instructions (41_immediate_alu.md): each one's result as arithmetic on the word or on its
half-words, and what two writes of one register leave; each obligation follows its lemmas. -/

namespace Sys2Proof.Machine

variable {s t u : State} {d : Reg} {v v' : Word}

/-! ### Half-words of a word (00_scope.md R10, 30_encoding.md R63) -/

/-- A word is its two half-words. -/
theorem append_extractLsb'_halves (x : Word) : x.extractLsb' 16 16 ++ x.extractLsb' 0 16 = x := by
  rw [BitVec.extractLsb'_append_extractLsb'_eq_extractLsb' (start₂ := 16) (start₁ := 0) rfl, BitVec.extractLsb'_eq_self]

/-- A zero-extended immediate meets the lower half alone. -/
theorem append_or_zext16 (hi lo imm : Imm) : (hi ++ lo : Word) ||| zext16 imm = hi ++ (lo ||| imm) := by
  refine BitVec.eq_of_getLsbD_eq fun j hj => ?_
  simp only [zext16, BitVec.getLsbD_or, BitVec.getLsbD_append, BitVec.getLsbD_setWidth, hj]
  by_cases hlow : j < 16
  · simp [hlow]
  · simp [hlow, BitVec.getLsbD_of_ge imm j (Nat.le_of_not_lt hlow)]

theorem upper16_eq_ofNat (imm : Imm) : upper16 imm = BitVec.ofNat 32 (imm.toNat * 65536) := by
  apply BitVec.eq_of_toNat_eq
  have happend : (upper16 imm).toNat = imm.toNat <<< 16 ||| 0 := BitVec.toNat_append imm 0#16
  rw [happend, BitVec.toNat_ofNat, Nat.or_zero, Nat.shiftLeft_eq, Nat.mod_eq_of_lt (by omega)]

/-- The lower half that LUI clears is the one that ORI fills, with no sign correction (41_immediate_alu.md R94). -/
theorem upper16_or_zext16_halves (k : Word) :
    upper16 (k.extractLsb' 16 16) ||| zext16 (k.extractLsb' 0 16) = k := by
  rw [upper16, append_or_zext16, BitVec.zero_or, append_extractLsb'_halves]

/-! ### The instructions (R90 to R93) -/

/-- ADDI forms its sum as an access forms its effective address. -/
theorem exec_addi (rs rt : Reg) (imm : Imm) (s : State) :
    exec (.addi rs rt imm) s = s.finish rt (BitVec.ofInt 32 ((s.readReg rs).toNat + imm.toInt)) :=
  congrArg (s.finish rt) (effectiveAddressAddsTheSignedOffset s rs imm)

theorem exec_addiu_eq_exec_addi (rs rt : Reg) (imm : Imm) (s : State) :
    exec (.addiu rs rt imm) s = exec (.addi rs rt imm) s := rfl

theorem exec_ori (rs rt : Reg) (imm : Imm) (s : State) : exec (.ori rs rt imm) s =
    s.finish rt ((s.readReg rs).extractLsb' 16 16 ++ ((s.readReg rs).extractLsb' 0 16 ||| imm)) := by
  rw [← append_or_zext16, append_extractLsb'_halves]
  rfl

theorem exec_lui (rt : Reg) (imm : Imm) (s : State) :
    exec (.lui rt imm) s = s.finish rt (BitVec.ofNat 32 (imm.toNat * 65536)) :=
  congrArg (s.finish rt) (upper16_eq_ofNat imm)

/-- Settles O31: the opcode map names ADDI, which writes the sum and falls through. -/
theorem addiAddsTheSignedImmediate : Obligations.AddiAddsTheSignedImmediate := fun rs rt imm =>
  ⟨decode_packI (by decide) rfl, fun s => exec_addi rs rt imm s ▸ finish_spec s rt _⟩

/-- Settles O32: the opcode map names ADDIU, which computes as ADDI does. -/
theorem addiuComputesAsAddi : Obligations.AddiuComputesAsAddi := fun rs rt imm =>
  ⟨decode_packI (by decide) rfl, fun s =>
    ⟨exec_addiu_eq_exec_addi rs rt imm s,
      exec_addiu_eq_exec_addi rs rt imm s ▸ (addiAddsTheSignedImmediate rs rt imm).2 s⟩⟩

/-- Settles O33: the opcode map names ORI, whose immediate meets the lower half alone. -/
theorem oriSetsLowBitsOnly : Obligations.OriSetsLowBitsOnly := fun rs rt imm =>
  ⟨decode_packI (by decide) rfl, fun s => exec_ori rs rt imm s ▸ finish_spec s rt _⟩

/-- Settles O34: the opcode map names LUI and passes over rs, and sixteen zeros below the immediate multiply it. -/
theorem luiLoadsTheUpperHalf : Obligations.LuiLoadsTheUpperHalf := fun _ rt imm =>
  ⟨decode_packI (make := fun _ rt imm => .lui rt imm) (by decide) rfl,
    fun s => exec_lui rt imm s ▸ finish_spec s rt _⟩

/-! ### Two writes of one register (R94) -/

/-- Of two writes of one register the second is what is left. -/
theorem WritesOnlyReg.trans (hst : WritesOnlyReg s t d v) (htu : WritesOnlyReg t u d v') :
    WritesOnlyReg s u d v' := by
  obtain ⟨hregs, hdata, ⟨hout, htr⟩, hconfig, hstatus⟩ := hst
  obtain ⟨hregs', hdata', ⟨hout', htr'⟩, hconfig', hstatus'⟩ := htu
  refine ⟨fun r => ?_, fun a => (hdata' a).trans (hdata a), ⟨hout'.trans hout, htr'.trans htr⟩,
    hconfig.trans hconfig', hstatus'.trans hstatus⟩
  rw [hregs', hregs]
  split <;> rfl

theorem WritesOnlyReg.readReg_dest (h : WritesOnlyReg s t d v) (hd : d ≠ 0) : t.readReg d = v := by
  obtain ⟨hregs, -⟩ := h
  rw [hregs, if_pos ⟨rfl, hd⟩]

/-- Settles O35: ORI reads back what LUI wrote, as the register is not 0, and makes the constant of it. -/
theorem luiThenOriBuildsAnyConstant : Obligations.LuiThenOriBuildsAnyConstant := fun s r k hr => by
  obtain ⟨t, hlui, hst, hpc⟩ := finish_spec s r (upper16 (k.extractLsb' 16 16))
  obtain ⟨u, hori, htu, hpc'⟩ := finish_spec t r k
  have hk : t.readReg r ||| zext16 (k.extractLsb' 0 16) = k := by
    rw [hst.readReg_dest hr, upper16_or_zext16_halves]
  refine ⟨t, u, hlui, (congrArg (t.finish r) hk).trans hori, hst.trans htu, ?_⟩
  rw [hpc', hpc, BitVec.add_assoc]
  rfl

end Sys2Proof.Machine
end

section
/-! SUPPORT. The branches (42_branches.md): the target as wrapped arithmetic, each branch as one redirect, and the step of
a core that takes one; each obligation follows its lemmas. -/

namespace Sys2Proof.Machine

variable {s t : State} {rs rt : Reg} {imm : Imm}

/-! ### The target (42_branches.md R102) -/

theorem State.branchTarget_eq_ofInt (s : State) (imm : Imm) :
    s.branchTarget imm = BitVec.ofInt 32 (s.pc.toNat + imm.toInt) := by
  simp [State.branchTarget, sext16, BitVec.signExtend, BitVec.ofInt_add]

/-- Immediate 0 names the branch itself (R103). -/
theorem State.branchTarget_zero (s : State) : s.branchTarget 0 = s.pc := by
  simp [State.branchTarget, sext16]

@[simp] theorem State.record_branchTarget (s : State) (w : Word) (imm : Imm) :
    (s.record w).branchTarget imm = s.branchTarget imm := by
  simp [State.branchTarget]

/-! ### The instructions (R100, R101) -/

theorem changesOnlyPc_redirect (s : State) (p : Word) : ChangesOnlyPc s (s.redirect p) := by
  simp [ChangesOnlyPc, SameRegs, SameData, SameStreams, SameConfig]

/-- A fall-through is the redirect to the next index, so either outcome of a branch is a redirect. -/
theorem exec_beq (rs rt : Reg) (imm : Imm) (s : State) : exec (.beq rs rt imm) s =
    .next (s.redirect (if s.readReg rs = s.readReg rt then s.branchTarget imm else s.pc + 1)) := by
  by_cases h : s.readReg rs = s.readReg rt
  · simp [exec, execBeq, State.branchIf, State.regsEqual, h]
  · simp [exec, execBeq, State.branchIf, State.regsEqual, h, State.fallThrough, State.redirect]

/-- BNE is BEQ with the outcomes exchanged. -/
theorem exec_bne (rs rt : Reg) (imm : Imm) (s : State) : exec (.bne rs rt imm) s =
    .next (s.redirect (if s.readReg rs = s.readReg rt then s.pc + 1 else s.branchTarget imm)) := by
  by_cases h : s.readReg rs = s.readReg rt
  · simp [exec, execBne, State.branchIf, State.regsEqual, h, State.fallThrough, State.redirect]
  · simp [exec, execBne, State.branchIf, State.regsEqual, h]

/-- Settles O36: the opcode map names BEQ, which redirects to the target on equality. -/
theorem beqRedirectsWhenEqual : Obligations.BeqRedirectsWhenEqual := fun rs rt imm =>
  ⟨decode_packI (by decide) rfl, fun s =>
    ⟨_, exec_beq rs rt imm s, changesOnlyPc_redirect s _, by rw [State.redirect_pc, State.branchTarget_eq_ofInt]⟩⟩

/-- Settles O37: the opcode map names BNE, which redirects to the target on inequality. -/
theorem bneRedirectsWhenDifferent : Obligations.BneRedirectsWhenDifferent := fun rs rt imm =>
  ⟨decode_packI (by decide) rfl, fun s =>
    ⟨_, exec_bne rs rt imm s, changesOnlyPc_redirect s _, by rw [State.redirect_pc, State.branchTarget_eq_ofInt]⟩⟩

/-! ### The step of a taken branch (R103, R104) -/

/-- The word at `pc` is a branch that the registers take. -/
def State.TakesBranch (s : State) (rs rt : Reg) (imm : Imm) : Prop :=
  decode s.fetched = .ok (.beq rs rt imm) ∧ s.readReg rs = s.readReg rt ∨
    decode s.fetched = .ok (.bne rs rt imm) ∧ s.readReg rs ≠ s.readReg rt

/-- Whichever branch it is, a taken one is the trace record and the redirect. -/
theorem step_of_takesBranch (hs : s.status = .running) (hn : s.hasNext = true) (hb : s.TakesBranch rs rt imm) :
    step s = .next ((s.record s.fetched).redirect (s.branchTarget imm)) := by
  obtain ⟨hd, heq⟩ | ⟨hd, hne⟩ := hb
  · rw [step_of_legal hs hn hd, exec_beq]
    simp [heq]
  · rw [step_of_legal hs hn hd, exec_bne]
    simp [hne]

/-- Settles O38: the redirect leaves the core running, and the next step's check finds `pc` at the target. -/
theorem branchPastTheEndFailsInTheNextStep : Obligations.BranchPastTheEndFailsInTheNextStep := by
  intro s rs rt imm hs hn hb htarget
  have hstep := step_of_takesBranch hs (State.hasNext_iff.mpr hn) hb
  have hrun : ((s.record s.fetched).redirect (s.branchTarget imm)).status = .running := by simpa using hs
  have hpast : ((s.record s.fetched).redirect (s.branchTarget imm)).hasNext = false :=
    State.hasNext_eq_false_iff.mpr (by simpa using htarget)
  exact ⟨_, _, hstep, hrun, rfl, step_of_past hrun hpast, rfl, rfl⟩

/-- A taken branch to itself changes the trace at most. -/
theorem step_of_takesBranch_zero (hs : s.status = .running) (hn : s.hasNext = true) (hb : s.TakesBranch rs rt 0) :
    ∃ r, step s = .next { s with tr := r } :=
  ⟨_, by rw [step_of_takesBranch hs hn hb, State.branchTarget_zero, State.record_eq]; rfl⟩

theorem run_succ_of_step {M : Host.Core} {s t : M.State} (h : M.step s = .next t) (k : Nat) :
    M.run (k + 1) s = M.run k t := by
  rw [Host.Core.run, h]

/-- Settles O39, by induction on the number of steps: the check, the fetch and the registers do not see the trace, so the
state after a step takes the branch again. -/
theorem branchToItselfNeverEnds : Obligations.BranchToItselfNeverEnds := by
  intro s rs rt hs hn hb k
  induction k generalizing s with
  | zero => exact ⟨s, rfl, rfl⟩
  | succ k ih =>
    obtain ⟨r, hstep⟩ := step_of_takesBranch_zero hs (State.hasNext_iff.mpr hn) hb
    obtain ⟨t, hrun, ht⟩ := ih { s with tr := r } hs hn hb
    exact ⟨t, (run_succ_of_step (M := core) hstep k).trans hrun, ht⟩

end Sys2Proof.Machine
end

section
/-! SUPPORT. The loads and stores in bounds (43_loads_stores.md): what a load makes of the bytes it reads, and that it
makes of the bytes just stored what it would make of the stored value; each obligation follows its lemmas. -/

namespace Sys2Proof.Machine

variable {s t : State} {width : Width} {rs rt rb rc : Reg} {imm off : Imm}

/-! ### Loads (43_loads_stores.md R110 to R112) -/

/-- The lowest byte of a read is the byte at its address. -/
theorem State.extractLsb'_memRead_zero (s : State) (a : Nat) {n : Nat} (hn : 0 < n) :
    (s.memRead a n).extractLsb' 0 8 = s.readByte a :=
  s.extractLsb'_memRead a hn (by omega)

theorem extend_memRead_byte (s : State) (a : Nat) :
    Width.byte.extend (s.memRead a 1) = (s.readByte a).signExtend 32 := by
  rw [Width.extend, sext8, BitVec.setWidth_eq_extractLsb' (by omega), s.extractLsb'_memRead_zero a (by omega)]

/-- The low half of a word is its two low bytes. -/
theorem append_extractLsb'_lowBytes (x : Word) : x.extractLsb' 8 8 ++ x.extractLsb' 0 8 = x.setWidth 16 := by
  rw [BitVec.extractLsb'_append_extractLsb'_eq_extractLsb' (start₂ := 8) (start₁ := 0) rfl,
    BitVec.setWidth_eq_extractLsb' (by omega)]

theorem extend_memRead_half (s : State) (a : Nat) :
    Width.half.extend (s.memRead a 2) = (s.readByte (a + 1) ++ s.readByte a).signExtend 32 := by
  rw [Width.extend, sext16, ← append_extractLsb'_lowBytes, s.extractLsb'_memRead_zero a (by omega),
    s.extractLsb'_memRead a (k := 1) (by omega) (by omega)]

/-- A word is its four bytes. -/
theorem append_extractLsb'_bytes (x : Word) :
    x.extractLsb' 24 8 ++ x.extractLsb' 16 8 ++ x.extractLsb' 8 8 ++ x.extractLsb' 0 8 = x := by
  rw [BitVec.extractLsb'_append_extractLsb'_eq_extractLsb' (start₂ := 24) (start₁ := 16) rfl,
    BitVec.extractLsb'_append_extractLsb'_eq_extractLsb' (start₂ := 16) (start₁ := 8) rfl,
    BitVec.extractLsb'_append_extractLsb'_eq_extractLsb' (start₂ := 8) (start₁ := 0) rfl, BitVec.extractLsb'_eq_self]

theorem extend_memRead_word (s : State) (a : Nat) : Width.word.extend (s.memRead a 4) =
    s.readByte (a + 3) ++ s.readByte (a + 2) ++ s.readByte (a + 1) ++ s.readByte a := by
  rw [Width.extend, ← append_extractLsb'_bytes (s.memRead a 4), s.extractLsb'_memRead_zero a (by omega),
    s.extractLsb'_memRead a (k := 1) (by omega) (by omega), s.extractLsb'_memRead a (k := 2) (by omega) (by omega),
    s.extractLsb'_memRead a (k := 3) (by omega) (by omega)]

/-- A load in bounds changes its destination alone and falls through. -/
theorem loadAt_spec (rt : Reg) (h : (s.effectiveAddress rs imm).toNat + width.bytes ≤ s.memsize.toNat) :
    ∃ t, s.loadAt width rs rt imm = .next t ∧
      WritesOnlyReg s t rt (width.extend (s.memRead (s.effectiveAddress rs imm).toNat width.bytes)) ∧
      t.pc = s.pc + 1 := by
  rw [loadAt_of_inBounds ((inBounds_iff s _ width).mpr h)]
  exact finish_spec s rt _

/-- Settles O41: each of the three is a load in bounds, and its result is those bytes of data memory. -/
theorem loadsReadLittleEndianBytes : Obligations.LoadsReadLittleEndianBytes := by
  rintro rs rt imm s _ rfl
  rw [← extend_memRead_byte, ← extend_memRead_half, ← extend_memRead_word]
  exact ⟨loadAt_spec (width := .byte) rt, loadAt_spec (width := .half) rt, loadAt_spec (width := .word) rt⟩

/-! ### Stores (R113 to R115) -/

/-- A store in bounds changes its bytes alone and falls through. -/
theorem storeAt_spec (rt : Reg) (h : (s.effectiveAddress rs imm).toNat + width.bytes ≤ s.memsize.toNat) :
    ∃ t, s.storeAt width rs rt imm = .next t ∧
      StoresOnlyBytes s t (s.effectiveAddress rs imm).toNat width.bytes (s.readReg rt) ∧ t.pc = s.pc + 1 :=
  storeAt_of_inBounds ((inBounds_iff s _ width).mpr h)

/-- Settles O42: each of the three is a store in bounds. -/
theorem storesWriteExactlyTheirBytes : Obligations.StoresWriteExactlyTheirBytes := by
  rintro rs rt imm s _ rfl
  exact ⟨storeAt_spec (width := .byte) rt, storeAt_spec (width := .half) rt, storeAt_spec (width := .word) rt⟩

/-! ### A load of what was just stored (R116) -/

/-- A load's result depends on no bit above its width. -/
theorem Width.extend_zeroExtend_extractLsb' (width : Width) (v : Word) :
    width.extend ((v.extractLsb' 0 (8 * width.bytes)).zeroExtend 32) = width.extend v := by
  cases width with
  | byte => simp [Width.extend, Width.bytes, ← BitVec.setWidth_eq_extractLsb']
  | half => simp [Width.extend, Width.bytes, ← BitVec.setWidth_eq_extractLsb']
  | word => simp [Width.extend, Width.bytes]

/-- A store in bounds followed by a load of its width at its address leaves what the load makes of the stored value. -/
theorem loadAt_of_storeAt (hrc : rc ≠ 0) (hea : t.effectiveAddress rb off = s.effectiveAddress rs imm)
    (hb : (s.effectiveAddress rs imm).toNat + width.bytes ≤ s.memsize.toNat)
    (ht : s.storeAt width rs rt imm = .next t) :
    ∃ u, t.loadAt width rb rc off = .next u ∧ u.readReg rc = width.extend (s.readReg rt) := by
  have hstored : t = (s.memWrite (s.effectiveAddress rs imm).toNat width.bytes (s.readReg rt)).fallThrough := by
    simpa [State.storeAt, (inBounds_iff s _ width).mpr hb] using ht.symm
  have hsize : t.memsize = s.memsize := by rw [hstored, State.fallThrough_memsize, State.memWrite_memsize]
  have hread : t.memRead (s.effectiveAddress rs imm).toNat width.bytes =
      ((s.readReg rt).extractLsb' 0 (8 * width.bytes)).zeroExtend 32 := by
    rw [hstored, State.memRead_congr (State.fallThrough_dmem _)]
    exact s.memRead_memWrite_within _ _ (k := 0) (by omega)
  have hb' : (t.effectiveAddress rb off).toNat + width.bytes ≤ t.memsize.toNat := by rwa [hea, hsize]
  obtain ⟨u, hload, hwrites, -⟩ := loadAt_spec rc hb'
  refine ⟨u, hload, ?_⟩
  rw [hwrites.readReg_dest hrc, hea, hread, Width.extend_zeroExtend_extractLsb']

/-- Settles O44: each of the three is a store and a load of one width at one address. -/
theorem loadAfterStoreGivesTheStoredValue : Obligations.LoadAfterStoreGivesTheStoredValue :=
  fun _ _ _ _ _ _ _ _ hrc hea => ⟨loadAt_of_storeAt (width := .word) hrc hea,
    loadAt_of_storeAt (width := .half) hrc hea, loadAt_of_storeAt (width := .byte) hrc hea⟩

end Sys2Proof.Machine
end

section
/-! SUPPORT. The register-type instructions and the syscall services (44_register_type.md): an R-format word with any
shamt, each instruction as one shared operation, the steps that exit with status 0, and the decimal text; each
obligation follows its lemmas. -/

namespace Sys2Proof

variable (f : BitVec 6) (rs rt rd shamt : Reg)

/-! ### R-format words (30_encoding.md R61, R64) -/

theorem toNat_registerFormat : (0#6 ++ rs ++ rt ++ rd ++ shamt ++ f : Word).toNat =
    rs.toNat * 2 ^ 21 + rt.toNat * 2 ^ 16 + rd.toNat * 2 ^ 11 + shamt.toNat * 2 ^ 6 + f.toNat := by
  simp only [Machine.toNat_append_eq_add, BitVec.toNat_ofNat]
  omega

/-- Each field of an R-format word reads back: in the word's number it is a quotient and a remainder. -/
theorem fields_registerFormat {w : Word} (hw : w = 0#6 ++ rs ++ rt ++ rd ++ shamt ++ f) :
    w.opcode = 0#6 ∧ w.rs = rs ∧ w.rt = rt ∧ w.rd = rd ∧ w.funct = f := by
  have hnat := hw ▸ toNat_registerFormat f rs rt rd shamt
  simp only [← BitVec.toNat_inj, Word.opcode, Word.rs, Word.rt, Word.rd, Word.funct, BitVec.extractLsb'_toNat,
    Nat.shiftRight_eq_div_pow, hnat, BitVec.toNat_zero]
  have := rs.isLt
  have := rt.isLt
  have := rd.isLt
  have := shamt.isLt
  have := f.isLt
  omega

/-- The value of shamt takes no part in the decode. -/
theorem decode_registerFormat {make : Reg → Reg → Reg → Instr} (hm : functMap.lookup f = some make) :
    decode (0#6 ++ rs ++ rt ++ rd ++ shamt ++ f) = .ok (make rs rt rd) := by
  obtain ⟨hop, hrs, hrt, hrd, hfunct⟩ := fields_registerFormat f rs rt rd shamt rfl
  rw [decode_of_funct hop hfunct hm, hrs, hrt, hrd]

theorem opcode_zero_append (free : BitVec 20) : Word.opcode (0#6 ++ free ++ f) = 0 := by
  rw [Word.opcode, BitVec.extractLsb'_append_eq_of_le (by decide), BitVec.extractLsb'_append_eq_of_le (by decide)]
  rfl

theorem funct_zero_append (free : BitVec 20) : Word.funct (0#6 ++ free ++ f) = f := by
  rw [Word.funct, BitVec.extractLsb'_append_eq_of_add_le (by decide), BitVec.extractLsb'_eq_self]

/-- Settles O52: the map makes SYSCALL of any three fields, so only the opcode and the function code are read. -/
theorem syscallIgnoresItsOtherBits : Obligations.SyscallIgnoresItsOtherBits := fun free =>
  decode_of_funct (opcode_zero_append _ free) (funct_zero_append _ free) (make := fun _ _ _ => .syscall) rfl

end Sys2Proof

namespace Sys2Proof.Machine

variable {s t : State} {i : Instr} {rs : Reg}

/-! ### ADD, MUL and SLT (44_register_type.md R130, R132, R133) -/

theorem exec_add (rs rt rd : Reg) (s : State) : exec (.add rs rt rd) s =
    s.finish rd (BitVec.ofNat 32 ((s.readReg rs).toNat + (s.readReg rt).toNat)) :=
  congrArg (s.finish rd) (BitVec.add_def _ _)

theorem exec_mul (rs rt rd : Reg) (s : State) : exec (.mul rs rt rd) s =
    s.finish rd (BitVec.ofNat 32 ((s.readReg rs).toNat * (s.readReg rt).toNat)) :=
  congrArg (s.finish rd) (by simp [BitVec.ofNat_mul])

theorem exec_slt (rs rt rd : Reg) (s : State) : exec (.slt rs rt rd) s =
    s.finish rd (if s.readReg rs < s.readReg rt then 1 else 0) := by
  simp only [BitVec.lt_def]
  rfl

/-- Settles O46: the function-code map names ADD, which writes the sum and falls through. -/
theorem addAddsRegistersModulo : Obligations.AddAddsRegistersModulo := fun rs rt rd shamt =>
  ⟨decode_registerFormat _ rs rt rd shamt rfl, fun s => exec_add rs rt rd s ▸ finish_spec s rd _⟩

/-- Settles O47: the function-code map names MUL, which writes the product and falls through. -/
theorem mulKeepsTheLowProduct : Obligations.MulKeepsTheLowProduct := fun rs rt rd shamt =>
  ⟨decode_registerFormat _ rs rt rd shamt rfl, fun s => exec_mul rs rt rd s ▸ finish_spec s rd _⟩

/-- Settles O48: the function-code map names SLT, which writes the comparison's result and falls through. -/
theorem sltComparesUnsigned : Obligations.SltComparesUnsigned := fun rs rt rd shamt =>
  ⟨decode_registerFormat _ rs rt rd shamt rfl, fun s => exec_slt rs rt rd s ▸ finish_spec s rd _⟩

/-! ### JR (R134, R135) -/

theorem exec_jr_of_lt (h : (s.readReg rs).toNat < s.n.toNat) :
    exec (.jr rs) s = .next (s.redirect (s.readReg rs)) :=
  congrArg Host.Outcome.next (if_pos h)

theorem exec_jr_of_le (h : s.n.toNat ≤ (s.readReg rs).toNat) :
    exec (.jr rs) s = .next (s.halt (.jrPastEnd (s.readReg rs))) :=
  congrArg Host.Outcome.next (if_neg (Nat.not_lt.mpr h))

/-- Settles O49: the function-code map names JR, and its comparison with `N` chooses the redirect or the halt. -/
theorem jrJumpsOrEndsTheRun : Obligations.JrJumpsOrEndsTheRun := fun rs rt rd shamt =>
  ⟨decode_registerFormat _ rs rt rd shamt (make := fun rs _ _ => .jr rs) rfl, fun s =>
    ⟨fun h => ⟨_, exec_jr_of_lt h, changesOnlyPc_redirect s _, rfl⟩, fun h => ⟨_, exec_jr_of_le h, rfl, rfl⟩⟩⟩

/-- An instruction that ends the run with exit status 0 is a JR past the end: every other halt has status 1. -/
theorem Effect.jr_of_exitStatus_zero (he : Effect s i t) (hs : s.status = .running) {reason : HaltReason}
    (ht : t.status = .halted reason) (hzero : reason.exitStatus = 0) :
    ∃ rs, i = .jr rs ∧ s.n.toNat ≤ (s.readReg rs).toNat := by
  cases he with
  | returned rs hi hle => exact ⟨rs, hi, hle⟩
  | wrote | jumped | stored | printed => simp [hs] at ht
  | exited | badService | leftMemory =>
    cases ht
    cases hzero

/-- A step that ends the run with exit status 0 fetched a JR past the end. -/
theorem StepEffect.jr_of_exitStatus_zero (he : StepEffect s t) (hs : s.status = .running) {reason : HaltReason}
    (ht : t.status = .halted reason) (hzero : reason.exitStatus = 0) :
    s.hasNext = true ∧ ∃ rs, decode s.fetched = .ok (.jr rs) ∧ s.n.toNat ≤ (s.readReg rs).toNat := by
  cases he with
  | pastEnd | illegal =>
    cases ht
    cases hzero
  | executed i t hn hd he =>
    obtain ⟨rs, rfl, hle⟩ := he.jr_of_exitStatus_zero (by simpa using hs) ht hzero
    exact ⟨hn, rs, hd, by simpa using hle⟩

theorem step_of_jr_pastEnd (hs : s.status = .running) (hn : s.hasNext = true) (hd : decode s.fetched = .ok (.jr rs))
    (hle : s.n.toNat ≤ (s.readReg rs).toNat) :
    step s = .next ((s.record s.fetched).halt (.jrPastEnd (s.readReg rs))) := by
  rw [step_of_legal hs hn hd, exec_jr_of_le (by simpa using hle), State.record_readReg]

/-- Settles O21: of the step's effects only the JR past the end has exit status 0, and that JR has no other effect. -/
theorem onlyJrPastEndExitsWithZero : Obligations.OnlyJrPastEndExitsWithZero := by
  intro s t h
  obtain ⟨hs, he⟩ := step_cases h
  rw [← State.hasNext_iff]
  constructor
  · rintro ⟨reason, ht, hzero⟩
    exact he.jr_of_exitStatus_zero hs ht hzero
  · rintro ⟨hn, rs, hd, hle⟩
    cases h.symm.trans (step_of_jr_pastEnd hs hn hd hle)
    exact ⟨_, rfl, rfl⟩

/-! ### SYSCALL (R140 to R146) -/

theorem exec_syscall_of_service {service : Service} (h : serviceTable.lookup (s.readReg 2) = some service) :
    exec .syscall s = .next (s.serve service) := by
  simp only [exec, execSyscall, h]

theorem exec_syscall_of_no_service (h : serviceTable.lookup (s.readReg 2) = none) :
    exec .syscall s = .next (s.halt (.badSyscall (s.readReg 2))) := by
  simp only [exec, execSyscall, h]

theorem printsOnly_emit_fallThrough (s : State) (bytes : List Byte) :
    PrintsOnly s (s.emit bytes).fallThrough bytes := by
  simp [PrintsOnly, SameRegs, SameData, SameConfig]

/-- Settles O50: the table gives code 10 the exit, and a code it does not list has no service. -/
theorem syscallEndsTheRunByItsCode : Obligations.SyscallEndsTheRunByItsCode := fun s =>
  ⟨fun h => ⟨_, exec_syscall_of_service (service := .exit) (by rw [h]; rfl), rfl, rfl⟩,
    fun h => ⟨_, exec_syscall_of_no_service (lookup_eq_none_of_not_mem h), rfl, rfl, rfl⟩⟩

/-- Settles O51: the table gives codes 1 and 11 the print services, each one an emission with fall-through. -/
theorem syscallPrintsItsArgument : Obligations.SyscallPrintsItsArgument := by
  refine fun s => ⟨fun h => ⟨_, exec_syscall_of_service (service := .printInteger) (by rw [h]; rfl), ?_⟩,
    fun h => ⟨_, exec_syscall_of_service (service := .printCharacter) (by rw [h]; rfl), ?_⟩⟩
  · exact printsOnly_emit_fallThrough s _
  · rw [← BitVec.setWidth_eq_extractLsb' (by omega)]
    exact printsOnly_emit_fallThrough s _

/-! ### The decimal text (R143) -/

theorem toNat_digitByte {d : Nat} (h : d < 10) : (digitByte d).toNat = 0x30 + d := by
  rw [digitByte, BitVec.toNat_ofNat, Nat.mod_eq_of_lt (by omega)]

theorem isDigitByte_digitByte {d : Nat} (h : d < 10) : isDigitByte (digitByte d) = true := by
  simp only [isDigitByte, toNat_digitByte h, Bool.and_eq_true, decide_eq_true_eq]
  omega

theorem digitByte_eq_zero_iff {d : Nat} (h : d < 10) : digitByte d = 0x30 ↔ d = 0 := by
  rw [← BitVec.toNat_inj, toNat_digitByte h]
  exact Nat.add_eq_left

theorem digitsWorth_append_digitByte (ds : List Byte) {d : Nat} (h : d < 10) :
    digitsWorth (ds ++ [digitByte d]) = digitsWorth ds * 10 + d := by
  simp [digitsWorth, List.foldl_append, toNat_digitByte h]

theorem decDigits_of_lt (fuel : Nat) {v : Nat} (h : v < 10) : decDigits (fuel + 1) v = [digitByte v] := if_pos h

theorem decDigits_of_le (fuel : Nat) {v : Nat} (h : 10 ≤ v) :
    decDigits (fuel + 1) v = decDigits fuel (v / 10) ++ [digitByte (v % 10)] := if_neg (Nat.not_lt.mpr h)

theorem decDigits_succ_ne_nil (fuel v : Nat) : decDigits (fuel + 1) v ≠ [] := by
  rw [decDigits]
  split <;> simp

theorem all_isDigitByte_decDigits (fuel v : Nat) : (decDigits fuel v).all isDigitByte = true := by
  induction fuel generalizing v with
  | zero => rfl
  | succ fuel ih =>
    rcases Nat.lt_or_ge v 10 with h | h
    · simp [decDigits_of_lt fuel h, isDigitByte_digitByte h]
    · simp [decDigits_of_le fuel h, ih, isDigitByte_digitByte (Nat.mod_lt v (by decide : 0 < 10))]

theorem digitsWorth_decDigits {fuel v : Nat} (hv : v < 10 ^ fuel) : digitsWorth (decDigits fuel v) = v := by
  induction fuel generalizing v with
  | zero => simpa [decDigits, digitsWorth, eq_comm] using hv
  | succ fuel ih =>
    rcases Nat.lt_or_ge v 10 with h | h
    · rw [decDigits_of_lt fuel h]
      simpa [digitsWorth] using digitsWorth_append_digitByte [] h
    · rw [decDigits_of_le fuel h, digitsWorth_append_digitByte _ (Nat.mod_lt v (by decide)),
        ih (by rw [pow_succ] at hv; omega), Nat.div_add_mod']

/-- The first digit is 0 only for the number 0. -/
theorem eq_zero_of_head?_decDigits {fuel v : Nat} (hv : v < 10 ^ fuel)
    (hhead : (decDigits fuel v).head? = some 0x30) : v = 0 := by
  induction fuel generalizing v with
  | zero => simpa using hv
  | succ fuel ih =>
    rcases Nat.lt_or_ge v 10 with h | h
    · rw [decDigits_of_lt fuel h] at hhead
      exact (digitByte_eq_zero_iff h).mp (Option.some.inj hhead)
    · have hdiv : v / 10 < 10 ^ fuel := by rw [pow_succ] at hv; omega
      have hne : decDigits fuel (v / 10) ≠ [] := fun hnil => by
        have hworth := digitsWorth_decDigits hdiv
        rw [hnil] at hworth
        simp only [digitsWorth, List.foldl_nil] at hworth
        omega
      rw [decDigits_of_le fuel h, List.head?_append_of_ne_nil _ hne] at hhead
      have := ih hdiv hhead
      omega

/-- Ten digits are enough for every register value. -/
theorem natAbs_toInt_lt (v : Word) : v.toInt.natAbs < 10 ^ 10 := by
  have hlow := v.le_toInt
  have hhigh := v.toInt_lt
  omega

/-- Settles O53: after the sign stand the digits of the absolute value, which has at most ten. -/
theorem decimalTextSpellsTheSignedValue : Obligations.DecimalTextSpellsTheSignedValue := fun v => by
  have hv := natAbs_toInt_lt v
  refine ⟨decDigits 10 v.toInt.natAbs, ?sign, decDigits_succ_ne_nil 9 _, all_isDigitByte_decDigits 10 _,
    digitsWorth_decDigits hv, fun hhead => ?zero⟩
  case sign =>
    rw [decText]
    split <;> rfl
  case zero => rw [eq_zero_of_head?_decDigits hv hhead]; rfl

end Sys2Proof.Machine
end

section
/-! SUPPORT. The exceptions (60_exceptions.md): a step that ends the run is precise, a run that has ended stays so, and
the exit status of each ending. -/

namespace Sys2Proof.Machine

variable {s t : State} {i : Instr}

/-! ### Precise halts (60_exceptions.md R156; decision D7) -/

/-- Of a running core's instructions, those that end the run are a halt of the state they began in. -/
theorem Effect.eq_halt (he : Effect s i t) (hs : s.status = .running) {reason : HaltReason}
    (ht : t.status = .halted reason) : t = s.halt reason := by
  cases he with
  | wrote | jumped | stored | printed => simp [hs] at ht
  | returned | exited | badService | leftMemory =>
    cases ht
    rfl

/-- A halt after the trace record changes the status and the trace alone. -/
theorem State.halt_record_eq (s : State) (w : Word) (reason : HaltReason) :
    (s.record w).halt reason = { s with status := .halted reason, tr := (s.record w).tr } := by
  rw [State.record_eq]
  rfl

/-- A step that ends the run either halted before any fetch or halted after the record of its fetch. -/
theorem StepEffect.eq_halt (he : StepEffect s t) (hs : s.status = .running) {reason : HaltReason}
    (ht : t.status = .halted reason) : t = s.halt reason ∨ t = (s.record s.fetched).halt reason := by
  cases he with
  | pastEnd =>
    cases ht
    exact .inl rfl
  | illegal =>
    cases ht
    exact .inr rfl
  | executed i t hn hd he => exact .inr (he.eq_halt (by simpa using hs) ht)

/-- Settles O13: the two ways to end the run are a halt and a halt after the trace record. -/
theorem haltsArePrecise : Obligations.HaltsArePrecise := fun s t reason h ht => by
  obtain ⟨hs, he⟩ := step_cases h
  obtain rfl | rfl := he.eq_halt hs ht
  · rfl
  · exact s.halt_record_eq s.fetched reason

/-! ### No return from a halt (R157, 10_state.md R28) -/

theorem run_succ_of_fault {M : Host.Core} {s : M.State} {r : M.Fault} (h : M.step s = .fault r) (k : Nat) :
    M.run (k + 1) s = .fault r := by
  rw [Host.Core.run, h]

/-- Settles O14: the first of the further steps is the fault, and a run stops at its first fault. -/
theorem haltedRunNeverResumes : Obligations.HaltedRunNeverResumes :=
  fun _ _ k hs => run_succ_of_fault (M := core) (step_of_halted hs) k

/-! ### Exit status (R165) -/

theorem HaltReason.exitStatus_eq_one {reason : HaltReason} (h : ∀ t, reason ≠ .jrPastEnd t) :
    reason.exitStatus = 1 := by
  cases reason with
  | jrPastEnd t => exact absurd rfl (h t)
  | exitSyscall | badInstruction | badSyscall | pastEnd | outOfBounds => rfl

/-- Settles O20, by the cases of the halt reasons and of the loader failures. -/
theorem exitStatusIsZeroForJrPastEndAlone : Obligations.ExitStatusIsZeroForJrPastEndAlone := by
  refine ⟨fun t => rfl, fun reason h => HaltReason.exitStatus_eq_one h, fun f => ?loader⟩
  case loader => cases f <;> rfl

end Sys2Proof.Machine
end

section
/-! SUPPORT. The launch (70_reset_and_hazards.md R185 to R193): what the loader reads of a file, that it reads a
container back, and when it fails; then the state and the invariant that reset leaves (R180), and when a core steps. -/

namespace Sys2Proof.Machine

/-! ### Bytes of a file (R188, R189) -/

/-- The file holds these bytes from an offset up. -/
def HoldsAt (file : List Byte) (o : Nat) (bs : List Byte) : Prop :=
  ∀ i (h : i < bs.length), fileByte file (o + i) = bs[i]

theorem holdsAt_append_self (bs tail : List Byte) : HoldsAt (bs ++ tail) 0 bs := fun i h => by
  rw [fileByte, Nat.zero_add, List.getD_append _ _ _ _ h, List.getD_eq_getElem _ _ h]

variable {file file' : List Byte} {o : Nat}

theorem holdsAt_cons {b : Byte} {bs : List Byte} :
    HoldsAt file o (b :: bs) ↔ fileByte file o = b ∧ HoldsAt file (o + 1) bs := by
  constructor
  · intro h
    refine ⟨h 0 (by simp), fun i hi => ?_⟩
    rw [Nat.add_right_comm]
    exact h (i + 1) (by simpa using hi)
  · rintro ⟨hb, hbs⟩ (_ | i) hi
    · exact hb
    · rw [← Nat.add_assoc, Nat.add_right_comm]
      exact hbs i (by simpa using hi)

theorem holdsAt_append {as bs : List Byte} :
    HoldsAt file o (as ++ bs) ↔ HoldsAt file o as ∧ HoldsAt file (o + as.length) bs := by
  induction as generalizing o with
  | nil => simp [HoldsAt]
  | cons a as ih => simp [holdsAt_cons, ih, and_assoc, Nat.add_assoc, Nat.add_comm 1]

/-- Reading the bytes that a file holds one by one gives them back. -/
theorem map_fileByte_of_holdsAt {bs : List Byte} {n : Nat} (hn : bs.length = n) (h : HoldsAt file o bs) :
    (List.range n).map (fun k => fileByte file (o + k)) = bs := by
  subst hn
  exact List.ext_getElem (by simp) fun i _ hi => by simpa using h i hi

@[simp] theorem length_bytesLE (v k : Nat) : (bytesLE v k).length = k := by
  induction k generalizing v with
  | zero => rfl
  | succ k ih => simp [bytesLE, ih]

@[simp] theorem length_bytesBE (w : Word) : (bytesBE w).length = 4 := by simp [bytesBE]

/-- A little-endian field by its first byte: `fieldLE` itself recurses on the last. -/
theorem fieldLE_succ_first (file : List Byte) (o k : Nat) :
    fieldLE file o (k + 1) = (fileByte file o).toNat + 256 * fieldLE file (o + 1) k := by
  induction k with
  | zero => simp [fieldLE]
  | succ k ih =>
    rw [fieldLE, ih, fieldLE, Nat.add_right_comm o 1 k]
    ring_nf

/-- Reading a little-endian field gives the number written (R188). -/
theorem fieldLE_of_holdsAt {v k : Nat} (h : HoldsAt file o (bytesLE v k)) : fieldLE file o k = v % 256 ^ k := by
  induction k generalizing o v with
  | zero => simp [fieldLE, Nat.mod_one]
  | succ k ih =>
    obtain ⟨hfirst, hrest⟩ := holdsAt_cons.mp h
    rw [fieldLE_succ_first, hfirst, ih hrest, pow_succ', Nat.mod_mul, BitVec.toNat_ofNat]

/-- Reading back all bytes of a bit vector gives its value. -/
theorem fieldLE_toNat {w k : Nat} {x : BitVec w} (hw : 2 ^ w = 256 ^ k) (h : HoldsAt file o (bytesLE x.toNat k)) :
    fieldLE file o k = x.toNat := by
  rw [fieldLE_of_holdsAt h, Nat.mod_eq_of_lt (hw ▸ x.isLt)]

/-- The low byte of a quotient by a power of two is a slice of the word. -/
theorem ofNat_toNat_div (w : Word) (k : Nat) : BitVec.ofNat 8 (w.toNat / 2 ^ k) = w.extractLsb' k 8 := by
  rw [BitVec.extractLsb', Nat.shiftRight_eq_div_pow]

/-- Reading a big-endian word gives the word written (R189). -/
theorem wordBE_of_holdsAt {w : Word} (h : HoldsAt file o (bytesBE w)) : wordBE file o = w := by
  have hbytes : bytesBE w = [w.extractLsb' 24 8, w.extractLsb' 16 8, w.extractLsb' 8 8, w.extractLsb' 0 8] := by
    simp [bytesBE, bytesLE, ← ofNat_toNat_div, Nat.div_div_eq_div_mul]
  simp only [hbytes, holdsAt_cons] at h
  obtain ⟨h0, h1, h2, h3, -⟩ := h
  rw [wordBE, h0, h1, h2, h3, append_extractLsb'_bytes]

/-- Reading the elements of an array one by one, each at its own offset, gives the elements written. -/
theorem map_read_of_holdsAt {α : Type} {read : Nat → α} {enc : α → List Byte} {c n : Nat} {xs : List α}
    (hn : xs.length = n) (hlen : ∀ x, (enc x).length = c) (hread : ∀ o x, HoldsAt file o (enc x) → read o = x)
    (h : HoldsAt file o (xs.flatMap enc)) : (List.range n).map (fun i => read (o + c * i)) = xs := by
  subst hn
  induction xs generalizing o with
  | nil => rfl
  | cons x xs ih =>
    rw [List.flatMap_cons, holdsAt_append, hlen] at h
    obtain ⟨hx, hxs⟩ := h
    have hoff : ∀ i, o + c * (i + 1) = o + c + c * i := fun i => by ring
    rw [List.length_cons, List.range_succ_eq_map, List.map_cons, List.map_map, Nat.mul_zero, Nat.add_zero, hread o x hx]
    simpa [Function.comp_def, hoff] using ih hxs

/-! ### Reading a container (R187, R190) -/

theorem length_flatMap_of_length_eq {α : Type} {enc : α → List Byte} {c : Nat} (hlen : ∀ x, (enc x).length = c)
    (xs : List α) : (xs.flatMap enc).length = c * xs.length := by
  simp [List.length_flatMap, hlen, Nat.mul_comm]

/-- A file with the container of an image at its beginning: where each field stands (R187). -/
structure HoldsContainer (file : List Byte) (magic : Vector Byte 4) (img : Image) : Prop where
  magic : HoldsAt file 0 magic.toList
  n : HoldsAt file 4 (bytesLE img.n.toNat 4)
  entry : HoldsAt file 8 (bytesLE img.entry.toNat 4)
  imem : HoldsAt file 12 (img.imem.flatMap bytesBE)
  dbg : HoldsAt file (12 + 4 * img.n.toNat) (img.dbg.flatMap fun d => bytesLE d.toNat 4)
  memsize : HoldsAt file (12 + 8 * img.n.toNat) (bytesLE img.memsize.toNat 2)
  init : HoldsAt file (14 + 8 * img.n.toNat) img.init

theorem wellFormed_iff {img : Image} : img.wellFormed = true ↔
    img.imem.length = img.n.toNat ∧ img.dbg.length = img.n.toNat ∧ img.init.length = img.memsize.toNat := by
  simp [Image.wellFormed, and_assoc]

/-- A container followed by any bytes holds the container's fields. -/
theorem holdsContainer_container (magic : Vector Byte 4) {img : Image} (himg : img.wellFormed = true)
    (tail : List Byte) : HoldsContainer (container magic img ++ tail) magic img := by
  obtain ⟨himem, hdbg, -⟩ := wellFormed_iff.mp himg
  have h := holdsAt_append_self (container magic img) tail
  have hlenImem := length_flatMap_of_length_eq length_bytesBE img.imem
  have hlenDbg := length_flatMap_of_length_eq (fun d : Word => length_bytesLE d.toNat 4) img.dbg
  have hmemsizeOff : 12 + 4 * img.n.toNat + 4 * img.n.toNat = 12 + 8 * img.n.toNat := by omega
  have hinitOff : 12 + 8 * img.n.toNat + 2 = 14 + 8 * img.n.toNat := by omega
  generalize container magic img ++ tail = file at h ⊢
  simp only [container, holdsAt_append, List.length_append, length_bytesLE, Vector.length_toList, hlenImem, hlenDbg,
    himem, hdbg, Nat.zero_add, Nat.reduceAdd, hmemsizeOff, hinitOff] at h
  obtain ⟨⟨⟨⟨⟨⟨hmagic, hn⟩, hentry⟩, himem⟩, hdbg⟩, hmemsize⟩, hinit⟩ := h
  exact ⟨hmagic, hn, hentry, himem, hdbg, hmemsize, hinit⟩

/-- The loader reads back the image whose container a file holds. -/
theorem readImage_of_holdsContainer {magic : Vector Byte 4} {img : Image} (h : HoldsContainer file magic img)
    (himg : img.wellFormed = true) : readImage file = img := by
  obtain ⟨himem, hdbg, hinit⟩ := wellFormed_iff.mp himg
  have hn := fieldLE_toNat rfl h.n
  have hmemsize := fieldLE_toNat rfl h.memsize
  have hword : ∀ o (d : Word), HoldsAt file o (bytesLE d.toNat 4) → BitVec.ofNat 32 (fieldLE file o 4) = d :=
    fun o d hd => by rw [fieldLE_toNat rfl hd, BitVec.ofNat_toNat, BitVec.setWidth_eq]
  simp only [readImage, hn, hmemsize, hword 8 _ h.entry, BitVec.ofNat_toNat, BitVec.setWidth_eq,
    map_read_of_holdsAt himem length_bytesBE (fun _ _ => wordBE_of_holdsAt) h.imem,
    map_read_of_holdsAt hdbg (fun d => length_bytesLE d.toNat 4) hword h.dbg, map_fileByte_of_holdsAt hinit h.init]

/-! ### The loader's checks (R186) -/

theorem holdsAt_magic_iff {magic : Vector Byte 4} :
    HoldsAt file 0 magic.toList ↔ ∀ k, ∀ h : k < 4, fileByte file k = magic[k] := by
  simp [HoldsAt]

/-- The magic check is that the file begins with `MAGIC`. -/
theorem magic_eq_iff {magic : Vector Byte 4} :
    (List.range 4).map (fileByte file) = magic.toList ↔ ∀ k, ∀ h : k < 4, fileByte file k = magic[k] := by
  simp [List.ext_getElem_iff]

variable {p : LoaderParams}

theorem load_of_badMagic (h : ∃ k, ∃ h : k < 4, fileByte file k ≠ p.magic[k]) :
    load p (some file) = .error .badMagic :=
  if_neg fun hmagic => by
    obtain ⟨k, hk, hne⟩ := h
    exact hne (magic_eq_iff.mp hmagic k hk)

theorem load_of_magic (h : ∀ k, ∀ h : k < 4, fileByte file k = p.magic[k]) : load p (some file) =
    if p.allocOk (readImage file).n (readImage file).memsize then .ok (readImage file) else .error .allocation :=
  if_pos (magic_eq_iff.mpr h)

/-- Settles O29: the container's fields stand where the loader reads them, and what follows is not read. -/
theorem loadReadsBackEveryContainer : Obligations.LoadReadsBackEveryContainer := fun p img tail himg halloc => by
  have h := holdsContainer_container p.magic himg tail
  rw [load_of_magic (holdsAt_magic_iff.mp h.magic), readImage_of_holdsContainer h himg, if_pos halloc]

/-- Settles O28: the loader decides by the magic, then by the allocation, and has no other way to fail. -/
theorem loaderFailsInThreeCasesOnly : Obligations.LoaderFailsInThreeCasesOnly := fun p => by
  refine ⟨rfl, fun file => ?_⟩
  have hbad : (∃ k, ∃ h : k < 4, fileByte file k ≠ p.magic[k]) ↔
      ¬∀ k, ∀ h : k < 4, fileByte file k = p.magic[k] := by simp
  rw [hbad]
  by_cases hmagic : ∀ k, ∀ h : k < 4, fileByte file k = p.magic[k]
  · rw [load_of_magic hmagic]
    cases p.allocOk (readImage file).n (readImage file).memsize with
    | true => simpa using hmagic
    | false => simpa using hmagic
  · simp [load_of_badMagic (hbad.mpr hmagic), hmagic]

/-! ### Missing bytes (R191) -/

theorem fieldLE_congr (h : ∀ o, fileByte file' o = fileByte file o) (o k : Nat) :
    fieldLE file' o k = fieldLE file o k := by
  induction k with
  | zero => rfl
  | succ k ih => rw [fieldLE, fieldLE, ih, h]

/-- The loader reads a file through `fileByte` alone. -/
theorem load_congr (h : ∀ o, fileByte file' o = fileByte file o) : load p (some file') = load p (some file) := by
  have himage : readImage file' = readImage file := by simp only [readImage, wordBE, h, fieldLE_congr h]
  have hbytes : fileByte file' = fileByte file := funext h
  rw [load, himage, hbytes, load]

theorem fileByte_append_zeros (file : List Byte) (k o : Nat) :
    fileByte (file ++ List.replicate k 0) o = fileByte file o := by
  rcases Nat.lt_or_ge o file.length with h | h
  · exact List.getD_append _ _ _ _ h
  · rw [fileByte, List.getD_append_right _ _ _ _ h, List.getD_eq_getElem?_getD,
      List.getElem?_getD_replicate_default_eq, fileByte, List.getD_eq_default _ _ h]

/-- Settles O30: an appended zero byte reads as the missing byte did, and the loader sees nothing else. -/
theorem missingFileBytesReadAsZero : Obligations.MissingFileBytesReadAsZero := fun _ file k =>
  load_congr (fileByte_append_zeros file k)

/-! ### Reset (R180, R181) -/

/-- The registers after reset (R180): `N` in `x[31]` and 0 elsewhere. -/
theorem readReg_boot (img : Image) (trace : Bool) (r : Reg) :
    (State.boot img trace).readReg r = if r = 31 then img.n else 0 := by
  have hslot : 31 = r.toNat ↔ r = 31 := by bv_omega
  by_cases hr : r = 0
  · subst hr
    rfl
  · simp only [State.readReg, if_neg hr, State.boot, Vector.getElem_set, hslot, Vector.getElem_replicate]

/-- Data memory after reset (R180): the image's initial byte. -/
theorem readByte_boot {img : Image} (himg : img.wellFormed = true) (trace : Bool) {k : Nat}
    (hk : k < img.memsize.toNat) : some ((State.boot img trace).readByte k) = img.init[k]? := by
  obtain ⟨-, -, hinit⟩ := wellFormed_iff.mp himg
  have hlen : k < img.init.length := by omega
  simp [State.readByte, State.boot, Memory.read_ofList, hk, hlen]

/-- Settles O26: the registers and data memory by their reads, the rest as reset sets it. -/
theorem bootSetsEveryPieceOfState : Obligations.BootSetsEveryPieceOfState := fun img trace himg =>
  ⟨readReg_boot img trace, rfl, fun _ hk => readByte_boot himg trace hk, rfl, rfl, rfl⟩

/-! ### The invariant after reset -/

theorem Memory.below_mono {w size size' : Nat} {m : Memory w} (hm : Memory.below size m = true) (h : size ≤ size') :
    Memory.below size' m = true := by
  simp only [Memory.below, List.all_eq_true, decide_eq_true_eq] at hm ⊢
  exact fun c hc => (hm c hc).trans_le h

theorem Memory.below_ofList_take {w : Nat} (size : Nat) (vs : List (BitVec w)) :
    Memory.below size (Memory.ofList (vs.take size)) = true :=
  Memory.below_mono (Memory.below_ofList _) (List.length_take_le size vs)

theorem inv_boot (img : Image) (trace : Bool) : (State.boot img trace).Inv where
  zeroSlot := rfl
  dmemCanonical := Memory.wf_ofList _
  dmemInRange := Memory.below_ofList_take _ _
  imemCanonical := Memory.wf_ofList _
  imemInRange := Memory.below_ofList_take _ _
  traceOff _ := rfl
  traceTrue _ h := by cases h
  haltExplained _ h := by cases h

/-- Settles O24: a memory made from a truncated list is canonical and within its bound, and the run has no past. -/
theorem invariantHoldsAfterEveryBoot : Obligations.InvariantHoldsAfterEveryBoot := inv_boot

/-- The reset constant is the reset from the empty image (log entry 1). -/
theorem reset_eq_boot : State.reset = State.boot Image.empty false := by decide

/-- Settles O23: the reset constant is a boot. -/
theorem invariantHoldsAtReset : Obligations.InvariantHoldsAtReset := by
  rw [Obligations.InvariantHoldsAtReset, reset_eq_boot]
  exact inv_boot _ _

theorem container_empty (magic : Vector Byte 4) :
    container magic Image.empty = magic.toList ++ List.replicate 10 0 := by
  simp [container, Image.empty, bytesLE]

/-- Settles O27: missing bytes read as the zeros of the empty image's container, which loads as that image. -/
theorem resetIsTheLaunchOfAMagicOnlyFile : Obligations.ResetIsTheLaunchOfAMagicOnlyFile := fun p halloc => by
  have hload : load p (some p.magic.toList) = .ok Image.empty := by
    rw [← missingFileBytesReadAsZero p _ 10, ← container_empty, ← List.append_nil (container _ _)]
    exact loadReadsBackEveryContainer p Image.empty [] rfl halloc
  rw [launch, hload, reset_eq_boot]
  rfl

/-! ### When a core steps (R197, 10_state.md R28) -/

/-- Settles O12: a running core's step answers a next state, and a step that does so began running. -/
theorem coreStepsExactlyWhileRunning : Obligations.CoreStepsExactlyWhileRunning := fun _ =>
  ⟨fun ⟨_, h⟩ => (step_cases h).1, fun hs => (step_effect hs).imp fun _ h => h.1⟩

end Sys2Proof.Machine
end
